-- ==== Sys2Proof/Word.lean ====
section
/-!
DEFINITION. The widths of the DA-sub001 core: 4-bit cells, 8-bit addresses, 9-bit faulting addresses, 32-bit counters
(`00_scope.md` R5, R6). Every value is unsigned and bit 0 is the least significant bit (R6).
-/

namespace Sys2Proof

/-- One memory cell, and every value as wide as a cell: ACC, IR, MDR, an opcode, an immediate (`00_scope.md` R5). -/
abbrev Cell := BitVec 4

/-- An address operand, PC and MAR: `ADDR_BITS` = 8 (`00_scope.md` R5). -/
abbrev Addr := BitVec 8

/-- `errorAddress`: `ERRADDR_BITS` = 9, wide enough for an address that does not exist (`10_state.md` R16). -/
abbrev ErrAddr := BitVec 9

/-- A counter that wraps modulo 2^32: `COUNTER_BITS` = 32 (`10_state.md` R17, R25). -/
abbrev Counter := BitVec 32

end Sys2Proof
end

