-- ==== Sys2Proof/Config.lean ====
section
/-!
DEFINITION. The parameters of the hardware (`00_scope.md` R5): what an implementation fixes and no operation changes.
A machine's parameters stand in its state as the field `config`, so that the rules, which the spec writes for any `MEM_SIZE`,
hold for every machine (90_conflicts.md C6); no step writes them. The parameters the spec leaves OPEN are free values:
opaque constants that nothing can evaluate (93_implementation_defined.md U8, log 3).
-/

namespace Sys2Proof

/-- `CYCLES[op]`, the table that "a model should take ... as a configuration field" (`40_step.md` R88). -/
structure CycleTable where
  hlt : Nat
  lda : Nat
  sta : Nat
  add : Nat
  sub : Nat
  jmp : Nat
  jz  : Nat
  ldi : Nat
  cmp : Nat
  deriving DecidableEq, Repr

/-- The numbers of the table of `40_step.md` R88. -/
def CycleTable.reference : CycleTable :=
  { hlt := 1, lda := 4, sta := 4, add := 4, sub := 4, jmp := 3, jz := 3, ldi := 2, cmp := 4 }

/-- The parameters of one machine (`00_scope.md` R5). -/
structure Config where
  /-- `MEM_SIZE`: the number of memory cells, 1 to 256. -/
  memSize : Nat
  /-- `CYCLES` (`40_step.md` R88). -/
  cycles : CycleTable
  /-- `SETTLE_CAP`: the hard cap on passes of one `settle`, at least 2. -/
  settleCap : Nat
  /-- `FASTEST_BATCH`: instructions per tick when `speed` is 0, at least 1. -/
  fastestBatch : Nat
  /-- `CMD_FIFO_DEPTH`: the capacity of the command channel, at least 1. -/
  cmdFifoDepth : Nat
  /-- `EVT_FIFO_DEPTH`: the capacity of the event channel, at least 1. -/
  evtFifoDepth : Nat
  /-- `RESET_CLEARS_MEMORY` (93_implementation_defined.md U1): true in this spec. -/
  resetClearsMemory : Bool
  deriving DecidableEq, Repr

/-- Free value: how far `SETTLE_CAP` lies above its least value 2 (U8, log 3). -/
opaque Config.openSettleCap : Nat

/-- Free value: how far `FASTEST_BATCH` lies above its least value 1 (U8, log 3). -/
opaque Config.openFastestBatch : Nat

/-- Free value: how far `CMD_FIFO_DEPTH` lies above its least value 1 (U8, log 3). -/
opaque Config.openCmdFifoDepth : Nat

/-- Free value: how far `EVT_FIFO_DEPTH` lies above its least value 1 (U8, log 3). -/
opaque Config.openEvtFifoDepth : Nat

/-- The parameters of the reference architecture (`00_scope.md` R5): `MEM_SIZE` = 256, `CYCLES` of `40_step.md` R88,
reset clears memory (U1), and every admissible value of the parameters the spec leaves open (log 3). -/
def Config.reference : Config :=
  { memSize := 256
    cycles := CycleTable.reference
    settleCap := Config.openSettleCap + 2
    fastestBatch := Config.openFastestBatch + 1
    cmdFifoDepth := Config.openCmdFifoDepth + 1
    evtFifoDepth := Config.openEvtFifoDepth + 1
    resetClearsMemory := true }

end Sys2Proof
end

