-- ==== Sys2Proof/Machine/Circuit.lean ====
section
/-!
DEFINITION. The data of the Gate Evaluation Engine: tri-state bits, ports, wires, gates, circuits, its operations and their
results (`10_state.md` R22 to R26, `44_gate_engine.md` R134, R140 to R145), and which circuits are well-formed (R26).
-/

namespace Sys2Proof.Machine

/-- A tri-state bit: 0, 1 or undefined. `x` is an ordinary third value, never a draw (`10_state.md` R22, U3). -/
inductive Tri where
  | zero
  | one
  | x
  deriving DecidableEq, Repr

/-- A port names one bit of one wire (`10_state.md` R24). -/
structure Port where
  wireId : Nat
  bitIndex : Nat
  deriving DecidableEq, Repr

/-- The six gate types the engine evaluates, and any other type a supplied circuit may name, which `loadCircuit` refuses
(`10_state.md` R24, `44_gate_engine.md` R134, R137). -/
inductive GateType where
  | and
  | or
  | xor
  | not
  | buf
  | dff
  | other (typeName : String)
  deriving DecidableEq, Repr

/-- A wire; index 0 of `bits` is the least significant bit (`10_state.md` R23). -/
structure Wire where
  id : Nat
  name : String
  width : Nat
  isInput : Bool
  isOutput : Bool
  bits : List Tri
  deriving DecidableEq, Repr

/-- A gate; `stored` is the persistent bit of a DFF and absent for every other type (`10_state.md` R24, R26). -/
structure Gate where
  id : Nat
  name : String
  type : GateType
  inputs : List Port
  outputs : List Port
  stored : Option Tri
  deriving DecidableEq, Repr

/-- A circuit snapshot (`10_state.md` R25). -/
structure Circuit where
  cycle : Counter
  stable : Bool
  wires : List Wire
  gates : List Gate
  deriving DecidableEq, Repr

/-- The engine's five operations (`44_gate_engine.md` R140 to R145). -/
inductive EngineOp where
  | loadCircuit (c : Circuit)
  | setInputWire (id : Nat) (value : List Tri)
  | settle
  | clockEdge
  | getWire (id : Nat)
  deriving DecidableEq, Repr

/-- The typed result of an engine operation (`44_gate_engine.md` section 4). -/
inductive EngineResult where
  /-- `Ok` with nothing to hand out (R140, R141, R144). -/
  | ok
  /-- `Ok(copy of the circuit)` of a `settle` that converged (R142). -/
  | settled (c : Circuit)
  /-- A copy of the wire record (R145). -/
  | wire (w : Wire)
  /-- No circuit is loaded (R141, R142, R144, R145). -/
  | noCircuit
  /-- The circuit is not well-formed (R140). -/
  | malformedCircuit
  /-- The id names no wire (R141, R145). -/
  | unknownWire
  /-- The value's length is not the wire's width (R141). -/
  | widthMismatch
  /-- `NonConvergence(n, copy of the circuit)` (R142, R143). -/
  | nonConvergence (passes : Nat) (c : Circuit)
  deriving DecidableEq, Repr

/-- DFFs are sequential, the other five types combinational (`44_gate_engine.md` R134). -/
def Gate.isDff (g : Gate) : Bool := g.type == .dff

/-- Every element's id is its index, counting from `n` (`10_state.md` R26). -/
def idsFrom : Nat → List Nat → Bool
  | _, [] => true
  | n, k :: ks => k == n && idsFrom (n + 1) ks

/-- The port's wire exists and has that bit (`10_state.md` R26). -/
def portExists (wires : List Wire) (p : Port) : Bool :=
  match wires[p.wireId]? with
  | some w => decide (p.bitIndex < w.width)
  | none => false

/-- `width` is at least 1 and `bits` has `width` entries (`10_state.md` R26). -/
def Wire.wellFormed (w : Wire) : Bool :=
  decide (1 ≤ w.width) && w.bits.length == w.width

/-- The port counts of the table of `44_gate_engine.md` R134; a type outside the six has none (R137). -/
def Gate.arityOk (g : Gate) : Bool :=
  decide (1 ≤ g.outputs.length) &&
    match g.type with
    | .and => decide (2 ≤ g.inputs.length)
    | .or => decide (2 ≤ g.inputs.length)
    | .xor => decide (2 ≤ g.inputs.length)
    | .not => g.inputs.length == 1
    | .buf => g.inputs.length == 1
    | .dff => decide (1 ≤ g.inputs.length)
    | .other _ => false

/-- Only a DFF has `stored`, and a DFF has one (`10_state.md` R24, R26; the second half is DEDUCED from R24, log 12). -/
def Gate.storedOk (g : Gate) : Bool := g.stored.isSome == g.isDff

/-- A gate of a well-formed circuit over `wires` (`10_state.md` R26). -/
def Gate.wellFormed (wires : List Wire) (g : Gate) : Bool :=
  g.arityOk && g.storedOk && g.inputs.all (portExists wires) && g.outputs.all (portExists wires)

/-- A well-formed circuit (`10_state.md` R26). -/
def Circuit.wellFormed (c : Circuit) : Bool :=
  idsFrom 0 (c.wires.map Wire.id) && idsFrom 0 (c.gates.map Gate.id) &&
    c.wires.all Wire.wellFormed && c.gates.all (Gate.wellFormed c.wires)

end Sys2Proof.Machine
end

