-- ==== Sys2Proof/Machine/State.lean ====
section
/-!
DEFINITION. The state of the three blocks as plain data (`10_state.md`), the messages that cross the controller's boundary,
the reasons a step can stop, and the machine right after power-up (`10_state.md` R34).
-/

namespace Sys2Proof.Machine

/-- Memory as (address, cell) pairs: addresses strictly rising, no listed cell 0. An unlisted address reads 0, the reset
contents (`10_state.md` R18, R34; log 1). -/
abbrev Memory := List (Nat × Cell)

/-- `errorCode` (`60_exceptions.md` R203); the fourth value of the two bits is "never written". -/
inductive ErrorCode where
  | none
  | invalidOpcode
  | addressOutOfRange
  deriving DecidableEq, Repr

/-- The CPU State record with the memory that the ISA Core owns (`10_state.md` R10 to R18). -/
structure IsaCore where
  /-- `programCounter` (R12). -/
  pc : Addr
  /-- `accumulator` (R11). -/
  acc : Cell
  /-- `zeroFlag`, the only flag (R13). -/
  zf : Bool
  /-- `instructionRegister` (R14). -/
  ir : Cell
  /-- `memoryAddressRegister` (R14). -/
  mar : Addr
  /-- `memoryDataRegister` (R14). -/
  mdr : Cell
  /-- Halted or Errored (R15). -/
  halted : Bool
  /-- Errored (R15). -/
  errored : Bool
  /-- First of the three fields that stand for `errorMessage` (R16, log 6). -/
  errorCode : ErrorCode
  /-- The faulting address (R16). -/
  errorAddress : ErrAddr
  /-- The opcode cell of the faulting instruction, 0 for a load error (R16). -/
  errorOpcode : Cell
  /-- Cycles of all completed instructions, modulo 2^32 (R17). -/
  cycleCount : Counter
  /-- Number of completed instructions, modulo 2^32 (R17). -/
  instructionCount : Counter
  /-- The `MEM_SIZE` cells (R18). -/
  mem : Memory
  deriving DecidableEq, Repr

/-- A value copy of CPU State, memory and the controller's `running`, `speed`, `breakpoints` (`10_state.md` R33). -/
structure Snapshot where
  core : IsaCore
  running : Bool
  speed : Nat
  breakpoints : List Addr
  deriving DecidableEq, Repr

/-- The commands (`10_state.md` R31). An absent start address is 0. -/
inductive Command where
  | loadProgram (words : List Cell) (startAddress : Option Addr)
  | step
  | run (speed : Nat)
  | stop
  | reset
  | getState
  | setSpeed (speed : Nat)
  | bpAdd (address : Addr)
  | bpRemove (address : Addr)
  | bpQuery
  deriving DecidableEq, Repr

/-- The events (`10_state.md` R32). -/
inductive Event where
  | stateUpdate (snapshot : Snapshot)
  | halted (snapshot : Snapshot)
  | error (code : ErrorCode) (address : ErrAddr) (opcode : Cell) (snapshot : Snapshot)
  | breakpointHit (address : Addr)
  | ready
  deriving DecidableEq, Repr

/-- The Execution Controller's state (`10_state.md` R29). -/
structure Controller where
  /-- A run timer is armed: the state Running (R29). -/
  running : Bool
  /-- Instructions per tick, 0 meaning fastest (R29, log 5). -/
  speed : Nat
  /-- The breakpoint set, its addresses strictly rising (R30, log 16). -/
  breakpoints : List Addr
  /-- The command channel, the oldest command first (R31). -/
  commands : List Command
  /-- The event channel, the oldest event first (R32). -/
  events : List Event
  deriving DecidableEq, Repr

/-- What the host, outside the hardware, does next (`00_scope.md` R2, `45_controller.md` R163; log 2). -/
inductive Input where
  /-- The host sends a command: it enters the command channel (`45_controller.md` R161). -/
  | send (c : Command)
  /-- The host's scheduler lets the controller take its oldest pending command (R162, R163). -/
  | takeCommand
  /-- The host's scheduler fires the run timer (R168). -/
  | tick
  /-- The host receives the oldest event (R161). -/
  | receiveEvent
  /-- The host calls an operation of the Gate Evaluation Engine (`44_gate_engine.md`). -/
  | engine (op : EngineOp)
  deriving DecidableEq, Repr

/-- Why the machine stops. -/
inductive Fault where
  /-- Raised by a step whose PC names no cell. `40_step.md` R82 says that this cannot happen ("`p` < `MEM_SIZE`"), and no
  run from a legal state reaches it. Safe (log 10). -/
  | fetchBeyondMemory
  deriving DecidableEq, Repr

/-- What the model gives no meaning to. -/
inductive Refusal where
  /-- An instruction whose arm of `exec` has no meaning yet. No arm answers so. Safe. -/
  | notModelled (mnemonic : String)
  /-- The host sends a command into a full command channel: "no step is defined" (U9, `45_controller.md` R161). Raised by
  the input `send`. Safe (log 9). -/
  | commandChannelFull
  /-- The controller emits into a full event channel: "no step is defined" (U9, `45_controller.md` R161). Raised by every
  emission. Safe (log 9). -/
  | eventChannelFull
  deriving DecidableEq, Repr

end Sys2Proof.Machine

namespace Sys2Proof.Machine

/-- The whole hardware: the three blocks, its fixed parameters, what its last operations returned, and the inputs the host
is about to give. -/
structure State where
  /-- The fixed parameters; no step writes them (`00_scope.md` R5). -/
  config : Config
  /-- The ISA Core with its memory (`10_state.md` R10 to R18). -/
  core : IsaCore
  /-- The circuit of the Gate Evaluation Engine, none before the first `loadCircuit` (`10_state.md` R25). -/
  circuit : Option Circuit
  /-- The Execution Controller (`10_state.md` R29). -/
  controller : Controller
  /-- The model's own: what the last `step()` of the ISA Core returned (`40_step.md` R80, log 7). -/
  cyclesConsumed : Nat
  /-- The model's own: what the last engine operation returned (`44_gate_engine.md` section 4, log 8). -/
  engineResult : Option EngineResult
  /-- The model's own: the host's next inputs, the next one first (`45_controller.md` R163, log 2). -/
  inputs : List Input
  deriving DecidableEq, Repr

/-- The ISA Core after `init()`: everything 0 (`10_state.md` R34, `70_reset_and_hazards.md` R231). -/
def IsaCore.init : IsaCore :=
  { pc := 0, acc := 0, zf := false, ir := 0, mar := 0, mdr := 0, halted := false, errored := false
    errorCode := .none, errorAddress := 0, errorOpcode := 0, cycleCount := 0, instructionCount := 0, mem := [] }

/-- The controller at power-up: Idle, speed 0, no breakpoints, no command, and the one event `READY`
(`10_state.md` R34, `45_controller.md` R178). -/
def Controller.init : Controller :=
  { running := false, speed := 0, breakpoints := [], commands := [], events := [.ready] }

/-- The hardware right after power-up (`10_state.md` R34, `70_reset_and_hazards.md` R230). -/
def State.reset : State :=
  { config := Config.reference
    core := IsaCore.init
    circuit := none
    controller := Controller.init
    cyclesConsumed := 0
    engineResult := none
    inputs := [] }

end Sys2Proof.Machine
end

