-- ==== Sys2Proof/Machine/Flags.lean ====
section
/-!
DEFINITION. The one flag and the 4-bit arithmetic (`10_state.md` R13, `42_arith_compare.md` R110, R114).
-/

namespace Sys2Proof.Machine

/-- `1 if v = 0 else 0`: what LDI, LDA, ADD and SUB write to Z (`10_state.md` R13). -/
def zeroFlag (v : Cell) : Bool := v == 0

/-- `1 if ACC = m else 0`: what CMP writes to Z (`42_arith_compare.md` R113). -/
def equalFlag (acc m : Cell) : Bool := acc == m

/-- `a +_4 b` (`42_arith_compare.md` R110). -/
def add4 (a b : Cell) : Cell := BitVec.ofNat 4 (a.toNat + b.toNat)

/-- `a -_4 b` (`42_arith_compare.md` R110). -/
def sub4 (a b : Cell) : Cell := BitVec.ofInt 4 ((a.toNat : Int) - (b.toNat : Int))

end Sys2Proof.Machine
end

