-- ==== Sys2Proof/Syntax.lean ====
section
/-!
DEFINITION. The nine instructions of the opcode map (`30_encoding.md` R65), with their operands as R64 assembles them.
-/

namespace Sys2Proof

/-- One instruction with its operand: an 8-bit absolute address or a 4-bit immediate (`30_encoding.md` R64, R65). -/
inductive Instr where
  /-- `HLT` (R123). -/
  | hlt
  /-- `LDA addr` (R101). -/
  | lda (addr : Addr)
  /-- `STA addr` (R102). -/
  | sta (addr : Addr)
  /-- `ADD addr` (R111). -/
  | add (addr : Addr)
  /-- `SUB addr` (R112). -/
  | sub (addr : Addr)
  /-- `JMP addr` (R121). -/
  | jmp (addr : Addr)
  /-- `JZ addr` (R122). -/
  | jz (addr : Addr)
  /-- `LDI imm` (R100). -/
  | ldi (imm : Cell)
  /-- `CMP addr` (R113). -/
  | cmp (addr : Addr)
  deriving DecidableEq, Repr

end Sys2Proof
end

