-- ==== Sys2Proof/WellFormed.lean ====
section
/-!
DEFINITION. Which terms are well-formed: instructions (all of them, `30_encoding.md` R67) and parameters
(`00_scope.md` R5). Circuits have their own check beside the engine, `Machine/Circuit.lean`, because `loadCircuit` runs it.
-/

namespace Sys2Proof

/-- Every instruction is well-formed: "every value of an immediate or an address is legal to decode" (`30_encoding.md` R67),
and the operand types hold exactly those values, so there is nothing left to check. -/
def Instr.wellFormed : Instr → Bool
  | .hlt => true
  | .lda _ => true
  | .sta _ => true
  | .add _ => true
  | .sub _ => true
  | .jmp _ => true
  | .jz _ => true
  | .ldi _ => true
  | .cmp _ => true

/-- "Every value is at least 1" (`40_step.md` R88). -/
def CycleTable.wellFormed (t : CycleTable) : Bool :=
  decide (1 ≤ t.hlt ∧ 1 ≤ t.lda ∧ 1 ≤ t.sta ∧ 1 ≤ t.add ∧ 1 ≤ t.sub ∧ 1 ≤ t.jmp ∧ 1 ≤ t.jz ∧ 1 ≤ t.ldi ∧ 1 ≤ t.cmp)

/-- The admissible parameters: 1 ≤ `MEM_SIZE` ≤ 2^`ADDR_BITS`, `SETTLE_CAP` at least 2, the batch and the two capacities
at least 1 (`00_scope.md` R5), every entry of `CYCLES` at least 1 (`40_step.md` R88). -/
def Config.wellFormed (c : Config) : Bool :=
  decide (1 ≤ c.memSize ∧ c.memSize ≤ 256 ∧ 2 ≤ c.settleCap ∧ 1 ≤ c.fastestBatch ∧ 1 ≤ c.cmdFifoDepth ∧ 1 ≤ c.evtFifoDepth)
    && c.cycles.wellFormed

end Sys2Proof
end

