-- ==== Sys2Proof/Decode.lean ====
section
/-!
DEFINITION. Decoding and encoding (`30_encoding.md` R60 to R69). The decoder is total on any list of cells and rejects by
name; the encoder is written from the same tables.
-/

namespace Sys2Proof

/-- Why a list of cells is no instruction. -/
inductive DecodeError where
  /-- There is no opcode cell. -/
  | noCells
  /-- The opcode cell is one of 0x9 to 0xF (`30_encoding.md` R66). -/
  | illegalOpcode (op : Cell)
  /-- Operand cell number `k` (1 or 2) of the instruction with opcode `op` is missing (`40_step.md` R83). -/
  | missingOperand (op : Cell) (k : Nat)
  deriving DecidableEq, Repr

/-- The three formats, each with the instruction it makes of its operand (`30_encoding.md` R60 to R63). -/
inductive Format where
  /-- Format N: one cell, no operand (R61). -/
  | n (i : Instr)
  /-- Format I: two cells, the second is the immediate (R62). -/
  | i (f : Cell → Instr)
  /-- Format A: three cells, the last two are the address, high half first (R63). -/
  | a (f : Addr → Instr)

/-- The decode function on the opcode cell: the table of `30_encoding.md` R69; `none` is Illegal (R66). -/
def formatOf (op : Cell) : Option Format :=
  match op.toNat with
  | 0x0 => some (.n .hlt)
  | 0x1 => some (.a .lda)
  | 0x2 => some (.a .sta)
  | 0x3 => some (.a .add)
  | 0x4 => some (.a .sub)
  | 0x5 => some (.a .jmp)
  | 0x6 => some (.a .jz)
  | 0x7 => some (.i .ldi)
  | 0x8 => some (.a .cmp)
  | _ => none

/-- The length in cells that the opcode cell alone decides (`30_encoding.md` R68). -/
def lengthOf (op : Cell) : Option Nat :=
  match formatOf op with
  | some (.n _) => some 1
  | some (.i _) => some 2
  | some (.a _) => some 3
  | none => none

/-- `addr = hi ++ lo` (`30_encoding.md` R64). -/
def joinAddr (hi lo : Cell) : Addr := hi ++ lo

/-- `addr[7:4]`, the first operand cell of format A (`30_encoding.md` R63). -/
def hiCell (a : Addr) : Cell := a.extractLsb' 4 4

/-- `addr[3:0]`, the second operand cell of format A (`30_encoding.md` R63). -/
def loCell (a : Addr) : Cell := a.extractLsb' 0 4

/-- Decodes the instruction at the head of a list of cells and gives the rest of the list. An illegal opcode is rejected
before any operand cell is looked at (`30_encoding.md` R66, `40_step.md` R83). -/
def decode : List Cell → Except DecodeError (Instr × List Cell)
  | [] => .error .noCells
  | op :: rest =>
    match formatOf op with
    | none => .error (.illegalOpcode op)
    | some (.n i) => .ok (i, rest)
    | some (.i f) =>
      match rest with
      | [] => .error (.missingOperand op 1)
      | imm :: rest => .ok (f imm, rest)
    | some (.a f) =>
      match rest with
      | [] => .error (.missingOperand op 1)
      | [_] => .error (.missingOperand op 2)
      | hi :: lo :: rest => .ok (f (joinAddr hi lo), rest)

/-- The opcode cell of an instruction: the table of `30_encoding.md` R65. -/
def opcodeOf : Instr → Cell
  | .hlt => 0x0
  | .lda _ => 0x1
  | .sta _ => 0x2
  | .add _ => 0x3
  | .sub _ => 0x4
  | .jmp _ => 0x5
  | .jz _ => 0x6
  | .ldi _ => 0x7
  | .cmp _ => 0x8

/-- The operand cells of an instruction (`30_encoding.md` R61 to R63). -/
def operandCellsOf : Instr → List Cell
  | .hlt => []
  | .lda a => [hiCell a, loCell a]
  | .sta a => [hiCell a, loCell a]
  | .add a => [hiCell a, loCell a]
  | .sub a => [hiCell a, loCell a]
  | .jmp a => [hiCell a, loCell a]
  | .jz a => [hiCell a, loCell a]
  | .ldi v => [v]
  | .cmp a => [hiCell a, loCell a]

/-- The cells of an instruction, the opcode cell first (`30_encoding.md` R60). -/
def encode (i : Instr) : List Cell :=
  opcodeOf i :: operandCellsOf i

/-- The length of an instruction in cells: the column "length" of `30_encoding.md` R65. -/
def Instr.length : Instr → Nat
  | .hlt => 1
  | .lda _ => 3
  | .sta _ => 3
  | .add _ => 3
  | .sub _ => 3
  | .jmp _ => 3
  | .jz _ => 3
  | .ldi _ => 2
  | .cmp _ => 3

/-- The three cells of a table word: cell `k` is bits `4k+3 .. 4k`, and the bits at and above `nbits` are 0. -/
def tableCells (nbits w : Nat) : List Cell :=
  let v := w % 2 ^ nbits
  [BitVec.ofNat 4 v, BitVec.ofNat 4 (v / 16), BitVec.ofNat 4 (v / 256)]

/-- The instruction the decoder reads from a word numbered as `opcode_table.json` numbers it: cell 0 in bits 3..0. -/
def decodeTableWord (nbits w : Nat) : Option Instr :=
  match decode (tableCells nbits w) with
  | .ok (i, _) => some i
  | .error _ => none

end Sys2Proof
end

