-- ==== Sys2Proof/Machine/Ops.lean ====
section
/-!
DEFINITION. The shared operations of the ISA Core: memory (`20_memory.md`), entering the error state (`60_exceptions.md`
R204), committing a step (`40_step.md` R86 to R90), `reset()` and `loadProgram()`.
-/

namespace Sys2Proof.Machine

/-- The cell at an address; an unlisted cell is 0 (`20_memory.md` R40, log 1). -/
def Memory.read : Memory → Nat → Cell
  | [], _ => 0
  | (b, v) :: m, a => if a = b then v else Memory.read m a

/-- Puts a pair into its place and keeps the canonical form: a cell that becomes 0 is no longer listed. -/
def Memory.write : Memory → Nat → Cell → Memory
  | [], a, v => if v = 0 then [] else [(a, v)]
  | (b, w) :: m, a, v =>
    if a < b then
      if v = 0 then (b, w) :: m else (a, v) :: (b, w) :: m
    else if a = b then
      if v = 0 then m else (a, v) :: m
    else (b, w) :: Memory.write m a v

/-- Writes `w[0], w[1], ...` at ascending addresses from `a` (`20_memory.md` R54). -/
def Memory.writeCells : Memory → Nat → List Cell → Memory
  | m, _, [] => m
  | m, a, v :: vs => Memory.writeCells (Memory.write m a v) (a + 1) vs

/-- Every listed address lies above `lo`, addresses strictly rise, and no listed cell is 0. -/
def Memory.wfAbove : Nat → Memory → Bool
  | _, [] => true
  | lo, (b, v) :: m => decide (lo ≤ b) && v != 0 && Memory.wfAbove (b + 1) m

/-- The canonical form: addresses strictly rising, no listed cell reading as an unlisted one does. -/
def Memory.wf (m : Memory) : Bool := Memory.wfAbove 0 m

/-- Every listed address is below `n`: memory holds cells `0 .. MEM_SIZE - 1` only (`10_state.md` R18). -/
def Memory.below (n : Nat) (m : Memory) : Bool := m.all fun c => decide (c.1 < n)

/-- An exception on its way: its cause and the faulting address (`60_exceptions.md` R201, R202). -/
structure Raised where
  code : ErrorCode
  address : Nat
  deriving DecidableEq, Repr

/-- `MemRead(a, 1)` (`20_memory.md` R41). -/
def memRead (s : State) (a : Nat) : Except Raised Cell :=
  if a < s.config.memSize then .ok (s.core.mem.read a) else .error ⟨.addressOutOfRange, a⟩

/-- `MemWrite(a, 1, v)`: the write that the step makes when it commits (`20_memory.md` R42). -/
def memWrite (s : State) (a : Nat) (v : Cell) : Except Raised (Nat × Cell) :=
  if a < s.config.memSize then .ok (a, v) else .error ⟨.addressOutOfRange, a⟩

/-- Entry to the error state: exactly five fields are written (`60_exceptions.md` R204, `40_step.md` R90). -/
def IsaCore.raise (x : Raised) (op : Cell) (c : IsaCore) : IsaCore :=
  { c with
    halted := true
    errored := true
    errorCode := x.code
    errorAddress := BitVec.ofNat 9 x.address
    errorOpcode := op }

/-- An error step: the error state is entered and `step()` returns 0 (`40_step.md` R90). -/
def errorStep (x : Raised) (op : Cell) (s : State) : State :=
  { s with core := s.core.raise x op, cyclesConsumed := 0 }

/-- The pending writes of a step (`40_step.md` R85) and the last memory access it made (R87). -/
structure Effect where
  acc : Cell
  zf : Bool
  store : Option (Nat × Cell)
  halt : Bool
  newPC : Nat
  mar : Addr
  mdr : Cell
  deriving DecidableEq, Repr

/-- The pending memory write, if there is one. -/
def Memory.apply (m : Memory) : Option (Nat × Cell) → Memory
  | none => m
  | some (a, v) => m.write a v

/-- All pending writes of a completed instruction take effect together, with IR, MAR, MDR and both counters
(`40_step.md` R86, R87, R89). -/
def IsaCore.commit (op : Cell) (cycles : Nat) (e : Effect) (c : IsaCore) : IsaCore :=
  { c with
    pc := BitVec.ofNat 8 e.newPC
    acc := e.acc
    zf := e.zf
    ir := op
    mar := e.mar
    mdr := e.mdr
    halted := e.halt || c.halted
    cycleCount := c.cycleCount + BitVec.ofNat 32 cycles
    instructionCount := c.instructionCount + 1
    mem := c.mem.apply e.store }

/-- The end of every instruction: a raised exception and a new PC at or beyond `MEM_SIZE` make an error step, anything else
commits and `step()` returns `CYCLES[op]` (`40_step.md` R86, R88, R90). -/
def finishStep (op : Cell) (cycles : Nat) (r : Except Raised Effect) (s : State) : State :=
  match r with
  | .error x => errorStep x op s
  | .ok e =>
    if e.newPC < s.config.memSize then
      { s with core := s.core.commit op cycles e, cyclesConsumed := cycles }
    else errorStep ⟨.addressOutOfRange, e.newPC⟩ op s

/-- `reset()` and `init()` of the ISA Core (`70_reset_and_hazards.md` R231). A machine whose parameter
`RESET_CLEARS_MEMORY` is false keeps its cells (U1, log 4). -/
def resetCore (s : State) : State :=
  { s with core := { IsaCore.init with mem := if s.config.resetClearsMemory then [] else s.core.mem } }

/-- `loadProgram(words, startAddress)`: the whole payload, or the error state and no cell written (`20_memory.md` R54). -/
def loadProgram (words : List Cell) (start : Addr) (s : State) : State :=
  if start.toNat + words.length ≤ s.config.memSize then
    { s with core := { s.core with mem := s.core.mem.writeCells start.toNat words } }
  else
    { s with core := s.core.raise ⟨.addressOutOfRange, max start.toNat s.config.memSize⟩ 0 }

/-- The next state of an outcome is handed on; a stop stays a stop. -/
def andThen (o : Host.Outcome State Fault Refusal) (f : State → Host.Outcome State Fault Refusal) :
    Host.Outcome State Fault Refusal :=
  match o with
  | .next s => f s
  | .fault r => .fault r
  | .refused r => .refused r

/-- The next state of an outcome, if it has one. -/
def nextState? (o : Host.Outcome State Fault Refusal) : Option State :=
  match o with
  | .next s => some s
  | .fault _ => none
  | .refused _ => none

end Sys2Proof.Machine
end

