-- ==== Sys2Proof/Machine/Operands.lean ====
section
/-!
DEFINITION. The operands of an executing instruction: its operand cells must exist (`40_step.md` R83), and its sequential
next address is not reduced (R84).
-/

namespace Sys2Proof.Machine

/-- `count` cells from address `a` exist; the first that does not raises its address (`40_step.md` R83, R92). -/
def cellsExist (s : State) : Nat → Nat → Except Raised Unit
  | 0, _ => .ok ()
  | n + 1, a => if a < s.config.memSize then cellsExist s n (a + 1) else .error ⟨.addressOutOfRange, a⟩

/-- The `count` operand cells `p+1 ..` of the instruction at PC exist (`40_step.md` R83). -/
def operandCells (s : State) (count : Nat) : Except Raised Unit :=
  cellsExist s count (s.core.pc.toNat + 1)

/-- `nextPC = p + len`, not reduced modulo anything (`40_step.md` R84). -/
def nextPC (s : State) (len : Nat) : Nat := s.core.pc.toNat + len

/-- The address of operand cell `k`, for MAR (`40_step.md` R87). -/
def operandAddr (s : State) (k : Nat) : Addr := BitVec.ofNat 8 (s.core.pc.toNat + k)

end Sys2Proof.Machine
end

