-- ==== Sys2Proof/Machine/Arith.lean ====
section
/-!
DEFINITION. ADD, SUB, CMP (`42_arith_compare.md` R110 to R114).
-/

namespace Sys2Proof.Machine

/-- `ADD addr` (`42_arith_compare.md` R111). -/
def execAdd (addr : Addr) (s : State) : Host.Outcome State Fault Refusal :=
  .next (finishStep 0x3 s.config.cycles.add
    (do
      operandCells s 2
      let m ← memRead s addr.toNat
      let r := add4 s.core.acc m
      return { acc := r, zf := zeroFlag r, store := none, halt := false, newPC := nextPC s 3, mar := addr, mdr := m })
    s)

/-- `SUB addr` (`42_arith_compare.md` R112). -/
def execSub (addr : Addr) (s : State) : Host.Outcome State Fault Refusal :=
  .next (finishStep 0x4 s.config.cycles.sub
    (do
      operandCells s 2
      let m ← memRead s addr.toNat
      let r := sub4 s.core.acc m
      return { acc := r, zf := zeroFlag r, store := none, halt := false, newPC := nextPC s 3, mar := addr, mdr := m })
    s)

/-- `CMP addr` (`42_arith_compare.md` R113). -/
def execCmp (addr : Addr) (s : State) : Host.Outcome State Fault Refusal :=
  .next (finishStep 0x8 s.config.cycles.cmp
    (do
      operandCells s 2
      let m ← memRead s addr.toNat
      return { acc := s.core.acc, zf := equalFlag s.core.acc m, store := none, halt := false, newPC := nextPC s 3
               mar := addr, mdr := m })
    s)

end Sys2Proof.Machine
end

