-- ==== Sys2Proof/Machine/Control.lean ====
section
/-!
DEFINITION. JMP, JZ, HLT (`43_control.md` R120 to R123).
-/

namespace Sys2Proof.Machine

/-- `JMP addr`: the sequential address is not checked, because it is not used (`43_control.md` R121). -/
def execJmp (addr : Addr) (s : State) : Host.Outcome State Fault Refusal :=
  .next (finishStep 0x5 s.config.cycles.jmp
    (do
      operandCells s 2
      return { acc := s.core.acc, zf := s.core.zf, store := none, halt := false, newPC := addr.toNat
               mar := operandAddr s 2, mdr := loCell addr })
    s)

/-- `JZ addr`: only the address actually chosen is checked (`43_control.md` R122). -/
def execJz (addr : Addr) (s : State) : Host.Outcome State Fault Refusal :=
  .next (finishStep 0x6 s.config.cycles.jz
    (do
      operandCells s 2
      return { acc := s.core.acc, zf := s.core.zf, store := none, halt := false
               newPC := if s.core.zf then addr.toNat else nextPC s 3
               mar := operandAddr s 2, mdr := loCell addr })
    s)

/-- `HLT` (`43_control.md` R123); in the last cell of memory it is an error step like any other instruction. -/
def execHlt (s : State) : Host.Outcome State Fault Refusal :=
  .next (finishStep 0x0 s.config.cycles.hlt
    (do
      operandCells s 0
      return { acc := s.core.acc, zf := s.core.zf, store := none, halt := true, newPC := nextPC s 1
               mar := s.core.pc, mdr := 0x0 })
    s)

end Sys2Proof.Machine
end

