-- ==== Sys2Proof/Machine/LoadStore.lean ====
section
/-!
DEFINITION. LDI, LDA, STA (`41_load_store.md` R100 to R102).
-/

namespace Sys2Proof.Machine

/-- `LDI imm` (`41_load_store.md` R100). -/
def execLdi (imm : Cell) (s : State) : Host.Outcome State Fault Refusal :=
  .next (finishStep 0x7 s.config.cycles.ldi
    (do
      operandCells s 1
      return { acc := imm, zf := zeroFlag imm, store := none, halt := false, newPC := nextPC s 2
               mar := operandAddr s 1, mdr := imm })
    s)

/-- `LDA addr` (`41_load_store.md` R101). -/
def execLda (addr : Addr) (s : State) : Host.Outcome State Fault Refusal :=
  .next (finishStep 0x1 s.config.cycles.lda
    (do
      operandCells s 2
      let m ← memRead s addr.toNat
      return { acc := m, zf := zeroFlag m, store := none, halt := false, newPC := nextPC s 3, mar := addr, mdr := m })
    s)

/-- `STA addr` (`41_load_store.md` R102). -/
def execSta (addr : Addr) (s : State) : Host.Outcome State Fault Refusal :=
  .next (finishStep 0x2 s.config.cycles.sta
    (do
      operandCells s 2
      let w ← memWrite s addr.toNat s.core.acc
      return { acc := s.core.acc, zf := s.core.zf, store := some w, halt := false, newPC := nextPC s 3
               mar := addr, mdr := s.core.acc })
    s)

end Sys2Proof.Machine
end

