-- ==== Sys2Proof/Machine/Dispatch.lean ====
section
/-!
DEFINITION. One arm per instruction, each one call of that instruction's own meaning.
-/

namespace Sys2Proof.Machine

/-- The effect of one fetched instruction (`40_step.md` R85 to R90). -/
def exec (i : Instr) (s : State) : Host.Outcome State Fault Refusal :=
  match i with
  | .hlt => Sys2Proof.Machine.execHlt s
  | .lda addr => Sys2Proof.Machine.execLda addr s
  | .sta addr => Sys2Proof.Machine.execSta addr s
  | .add addr => Sys2Proof.Machine.execAdd addr s
  | .sub addr => Sys2Proof.Machine.execSub addr s
  | .jmp addr => Sys2Proof.Machine.execJmp addr s
  | .jz addr => Sys2Proof.Machine.execJz addr s
  | .ldi imm => Sys2Proof.Machine.execLdi imm s
  | .cmp addr => Sys2Proof.Machine.execCmp addr s

end Sys2Proof.Machine
end

