-- ==== Sys2Proof/Machine/CoreStep.lean ====
section
/-!
DEFINITION. The ISA Core's `step()` (`40_step.md` R80 to R83): the check of `halted`, the fetch, the decode and the execution.
-/

namespace Sys2Proof.Machine

/-- The cells at `a`, `a+1`, ... that exist, at most `count` of them (`20_memory.md` R44, `40_step.md` R83). -/
def cellsFrom (s : State) : Nat → Nat → List Cell
  | 0, _ => []
  | n + 1, a => if a < s.config.memSize then s.core.mem.read a :: cellsFrom s n (a + 1) else []

/-- The cells of the next instruction: it is at most 3 cells long (`30_encoding.md` R60). Reading has no side effect
(`20_memory.md` R41), so reading more cells than the instruction has changes nothing. -/
def fetchCells (s : State) : List Cell := cellsFrom s 3 s.core.pc.toNat

/-- The ISA Core's `step()` (`40_step.md` R80 to R83, R90). -/
def coreStep (s : State) : Host.Outcome State Fault Refusal :=
  if s.core.halted then .next { s with cyclesConsumed := 0 }
  else
    match decode (fetchCells s) with
    | .ok (i, _) => exec i s
    | .error (.illegalOpcode op) => .next (errorStep ⟨.invalidOpcode, s.core.pc.toNat⟩ op s)
    | .error (.missingOperand op k) => .next (errorStep ⟨.addressOutOfRange, s.core.pc.toNat + k⟩ op s)
    | .error .noCells => .fault .fetchBeyondMemory

/-- Puts the cells of a table word at PC and makes the core Ready, the controller Idle with the one command STEP pending and room
for its event, and the taking of that command the host's one input, so that the next step fetches and runs exactly that
instruction (log 15). Cells beyond memory are not written. -/
def placeInstruction (s : State) (nbits w : Nat) : State :=
  { s with
    core := { s.core with
      halted := false
      errored := false
      errorCode := .none
      mem := s.core.mem.writeCells s.core.pc.toNat
        ((tableCells nbits w).take (s.config.memSize - s.core.pc.toNat)) }
    controller := { s.controller with running := false, commands := [.step], events := [] }
    inputs := [.takeCommand] }

end Sys2Proof.Machine
end

