-- ==== Sys2Proof/Machine/Controller.lean ====
section
/-!
DEFINITION. The Execution Controller (`45_controller.md`): events, commands, the tick, breakpoints.
-/

namespace Sys2Proof.Machine

/-- The snapshot an event carries, taken at this moment (`10_state.md` R33). -/
def snapshot (s : State) : Snapshot :=
  { core := s.core, running := s.controller.running, speed := s.controller.speed, breakpoints := s.controller.breakpoints }

/-- `emit e`: appends to the event channel; a full channel has no step (`45_controller.md` R161, U9, log 9). -/
def emit (e : Event) (s : State) : Host.Outcome State Fault Refusal :=
  if s.controller.events.length < s.config.evtFifoDepth then
    .next { s with controller := { s.controller with events := s.controller.events ++ [e] } }
  else .refused .eventChannelFull

/-- The one event that fits the core's status (`45_controller.md` R164). -/
def reportEvent (s : State) : Event :=
  if s.core.errored then .error s.core.errorCode s.core.errorAddress s.core.errorOpcode (snapshot s)
  else if s.core.halted then .halted (snapshot s)
  else .stateUpdate (snapshot s)

/-- `report()` (`45_controller.md` R164). -/
def report (s : State) : Host.Outcome State Fault Refusal := emit (reportEvent s) s

/-- `emit STATE_UPDATE(snapshot)`. -/
def update (s : State) : Host.Outcome State Fault Refusal := emit (.stateUpdate (snapshot s)) s

/-- `running <- b`. -/
def setRunning (b : Bool) (s : State) : State :=
  { s with controller := { s.controller with running := b } }

/-- `breakpoints ∪ {a}`, addresses strictly rising (`45_controller.md` R176, log 16). -/
def addBreakpoint (a : Addr) : List Addr → List Addr
  | [] => [a]
  | b :: bs => if a < b then a :: b :: bs else if a = b then b :: bs else b :: addBreakpoint a bs

/-- `breakpoints \ {a}` (`45_controller.md` R176). -/
def removeBreakpoint (a : Addr) (bs : List Addr) : List Addr := bs.filter fun b => b != a

/-- `LOAD_PROGRAM(words, startAddress = 0)` (`45_controller.md` R165). -/
def commandLoadProgram (words : List Cell) (start : Option Addr) (s : State) : Host.Outcome State Fault Refusal :=
  report (loadProgram words (start.getD 0) (resetCore (setRunning false s)))

/-- `if core.halted = 1: running <- 0` (`45_controller.md` R166). -/
def stopIfHalted (s : State) : State := if s.core.halted then setRunning false s else s

/-- `STEP` (`45_controller.md` R166). -/
def commandStep (s : State) : Host.Outcome State Fault Refusal :=
  andThen (coreStep s) fun t => report (stopIfHalted t)

/-- `RUN(speed)` (`45_controller.md` R167). -/
def commandRun (speed : Nat) (s : State) : Host.Outcome State Fault Refusal :=
  if s.controller.running then .next s
  else if s.core.halted then report s
  else .next { s with controller := { s.controller with running := true, speed := speed } }

/-- `STOP` (`45_controller.md` R169). -/
def commandStop (s : State) : Host.Outcome State Fault Refusal := update (setRunning false s)

/-- `RESET` (`45_controller.md` R170). -/
def commandReset (s : State) : Host.Outcome State Fault Refusal := update (resetCore (setRunning false s))

/-- `SET_SPEED(speed)` (`45_controller.md` R171). -/
def commandSetSpeed (speed : Nat) (s : State) : Host.Outcome State Fault Refusal :=
  if s.controller.running then .next { s with controller := { s.controller with speed := speed } } else .next s

/-- `GET_STATE` (`45_controller.md` R172). -/
def commandGetState (s : State) : Host.Outcome State Fault Refusal := update s

/-- `BP_ADD(address)` (`45_controller.md` R176). -/
def commandBpAdd (a : Addr) (s : State) : Host.Outcome State Fault Refusal :=
  .next { s with controller := { s.controller with breakpoints := addBreakpoint a s.controller.breakpoints } }

/-- `BP_REMOVE(address)` (`45_controller.md` R176). -/
def commandBpRemove (a : Addr) (s : State) : Host.Outcome State Fault Refusal :=
  .next { s with controller := { s.controller with breakpoints := removeBreakpoint a s.controller.breakpoints } }

/-- `BP_QUERY` (`45_controller.md` R176). -/
def commandBpQuery (s : State) : Host.Outcome State Fault Refusal := update s

/-- One command, processed to completion (`45_controller.md` R162). -/
def command (c : Command) (s : State) : Host.Outcome State Fault Refusal :=
  match c with
  | .loadProgram words start => commandLoadProgram words start s
  | .step => commandStep s
  | .run speed => commandRun speed s
  | .stop => commandStop s
  | .reset => commandReset s
  | .getState => commandGetState s
  | .setSpeed speed => commandSetSpeed speed s
  | .bpAdd a => commandBpAdd a s
  | .bpRemove a => commandBpRemove a s
  | .bpQuery => commandBpQuery s

/-- The instructions of one tick that are still to be executed, up to `n` of them; the run ends at a halt or an error, else at
a breakpoint (`45_controller.md` R168, R173, R174). -/
def batch : Nat → State → Host.Outcome State Fault Refusal
  | 0, s => update s
  | n + 1, s =>
    andThen (coreStep s) fun t =>
      if t.core.halted then report (setRunning false t)
      else if t.core.pc ∈ t.controller.breakpoints then
        andThen (emit (.breakpointHit t.core.pc) (setRunning false t)) update
      else batch n t

/-- How many instructions the tick may execute; read once, at its start (`45_controller.md` R168). -/
def batchSize (s : State) : Nat :=
  if s.controller.speed = 0 then s.config.fastestBatch else s.controller.speed

/-- A tick of the run timer (`45_controller.md` R168). -/
def tick (s : State) : Host.Outcome State Fault Refusal :=
  if s.controller.running then batch (batchSize s) s else .next s

/-- The number of a command, in DA1's order of listing (`45_controller.md` R181); no rule depends on it. -/
def Command.tag : Command → Nat
  | .loadProgram _ _ => 0
  | .step => 1
  | .run _ => 2
  | .stop => 3
  | .reset => 4
  | .getState => 5
  | .setSpeed _ => 6
  | .bpAdd _ => 7
  | .bpRemove _ => 8
  | .bpQuery => 9

/-- The number of an event (`45_controller.md` R181); no rule depends on it. -/
def Event.tag : Event → Nat
  | .stateUpdate _ => 0
  | .halted _ => 1
  | .error _ _ _ _ => 2
  | .breakpointHit _ => 3
  | .ready => 4

/-- The number of an error code (`60_exceptions.md` R203). -/
def ErrorCode.number : ErrorCode → BitVec 2
  | .none => 0
  | .invalidOpcode => 1
  | .addressOutOfRange => 2

end Sys2Proof.Machine
end

