-- ==== Sys2Proof/Machine/Engine.lean ====
section
/-!
DEFINITION. The Gate Evaluation Engine (`44_gate_engine.md`): three-valued logic, gates, the evaluation order, passes and the
five operations. Each operation takes the engine's circuit (or none) and gives the circuit it leaves and its result.
-/

namespace Sys2Proof.Machine

/-- NOT (`44_gate_engine.md` R130). -/
def Tri.not : Tri → Tri
  | .zero => .one
  | .one => .zero
  | .x => .x

/-- AND: "0 if either input is 0; otherwise 1 if both are 1; otherwise X" (`44_gate_engine.md` R131). -/
def Tri.and : Tri → Tri → Tri
  | .zero, _ => .zero
  | .one, b => b
  | .x, .zero => .zero
  | .x, .one => .x
  | .x, .x => .x

/-- OR: "1 if either input is 1; otherwise 0 if both are 0; otherwise X" (`44_gate_engine.md` R132). -/
def Tri.or : Tri → Tri → Tri
  | .one, _ => .one
  | .zero, b => b
  | .x, .one => .one
  | .x, .zero => .x
  | .x, .x => .x

/-- XOR: "X if either input is X; otherwise 1 if the inputs differ, 0 if they are equal" (`44_gate_engine.md` R133). -/
def Tri.xor : Tri → Tri → Tri
  | .x, _ => .x
  | .zero, b => b
  | .one, b => b.not

/-- The bit a port names. A port of a well-formed circuit always names one; elsewhere the bit reads X (log 12). -/
def readPort (wires : List Wire) (p : Port) : Tri :=
  match wires[p.wireId]? with
  | some w => w.bits[p.bitIndex]?.getD .x
  | none => .x

/-- Writes the bit a port names. -/
def writePort (wires : List Wire) (p : Port) (v : Tri) : List Wire :=
  wires.modify p.wireId fun w => { w with bits := w.bits.set p.bitIndex v }

/-- `v[0] op v[1] op ... op v[n-1]` in port order (`44_gate_engine.md` R135). -/
def foldBits (op : Tri → Tri → Tri) : List Tri → Tri
  | [] => .x
  | v :: vs => vs.foldl op v

/-- The one bit a gate drives on its outputs: a combinational gate computes it from its inputs (`44_gate_engine.md` R135), a
DFF drives its `stored` bit whatever its input is (R136). -/
def Gate.value (wires : List Wire) (g : Gate) : Tri :=
  let v := g.inputs.map (readPort wires)
  match g.type with
  | .and => foldBits Tri.and v
  | .or => foldBits Tri.or v
  | .xor => foldBits Tri.xor v
  | .not => (v.headD .x).not
  | .buf => v.headD .x
  | .dff => g.stored.getD .x
  | .other _ => .x

/-- The combinational gates, in ascending id (`44_gate_engine.md` R138). -/
def combinational (gates : List Gate) : List Gate :=
  gates.filter fun g => !g.isDff

/-- "Some output port of `h` is the same as some input port of `g`" (`44_gate_engine.md` R138). -/
def feeds (h g : Gate) : Bool :=
  h.outputs.any fun p => g.inputs.contains p

/-- The gate placed next: the first of the remaining gates that no remaining gate feeds; if every remaining gate is in or
behind a cycle, the first remaining gate (`44_gate_engine.md` R138). -/
def pickGate (remaining : List Gate) : Option Gate :=
  match remaining.find? fun g => remaining.all fun h => !feeds h g with
  | some g => some g
  | none => remaining.head?

/-- Places `fuel` gates, one after the other (`44_gate_engine.md` R138). -/
def orderGates : Nat → List Gate → List Gate
  | 0, _ => []
  | fuel + 1, remaining =>
    match pickGate remaining with
    | none => []
    | some g => g :: orderGates fuel (remaining.eraseP fun h => h.id == g.id)

/-- The evaluation order: every combinational gate once (`44_gate_engine.md` R138). It is a function of the gates' ports,
which only `loadCircuit` replaces, so it is "fixed at `loadCircuit`" without being stored (log 11). -/
def evalOrder (gates : List Gate) : List Gate :=
  orderGates (combinational gates).length (combinational gates)

/-- Drives `v` on one output port; a bit that differs is written and noted as a change (`44_gate_engine.md` R139). -/
def drivePort (v : Tri) (acc : List Wire × Bool) (p : Port) : List Wire × Bool :=
  if readPort acc.1 p = v then acc else (writePort acc.1 p v, true)

/-- One gate's turn in a pass: its value from the bits as they are now, then its output ports (`44_gate_engine.md` R139). -/
def driveGate (acc : List Wire × Bool) (g : Gate) : List Wire × Bool :=
  g.outputs.foldl (drivePort (g.value acc.1)) acc

/-- A pass over the gates in `order`; the flag says whether a bit was written (`44_gate_engine.md` R139). -/
def pass (order : List Gate) (wires : List Wire) : List Wire × Bool :=
  order.foldl driveGate (wires, false)

/-- The first loop of `settle`: every DFF, in ascending id, drives its `stored` bit (`44_gate_engine.md` R136, R142). -/
def driveDffs (gates : List Gate) (wires : List Wire) : List Wire :=
  ((gates.filter Gate.isDff).foldl driveGate (wires, false)).1

/-- What the passes of a `settle` came to: how many were run, the wires they left, whether the last one changed nothing. -/
structure Passes where
  count : Nat
  wires : List Wire
  converged : Bool
  deriving DecidableEq, Repr

/-- The second loop of `settle`: passes until one changes nothing or none of the `cap` is left (`44_gate_engine.md` R142).
`n` counts the passes already run. -/
def runPasses (order : List Gate) : Nat → Nat → List Wire → Passes
  | 0, n, wires => { count := n, wires := wires, converged := false }
  | left + 1, n, wires =>
    let r := pass order wires
    if r.2 then runPasses order left (n + 1) r.1
    else { count := n + 1, wires := r.1, converged := true }

/-- The passes of one `settle` of a circuit (`44_gate_engine.md` R142). -/
def settlePasses (cap : Nat) (c : Circuit) : Passes :=
  runPasses (evalOrder c.gates) cap 0 (driveDffs c.gates c.wires)

/-- `loadCircuit(c)` (`44_gate_engine.md` R140). -/
def loadCircuit (c : Circuit) (e : Option Circuit) : Option Circuit × EngineResult :=
  if c.wellFormed then (some { c with stable := false }, .ok) else (e, .malformedCircuit)

/-- `setInputWire(id, value)`: any wire may be set, also one that a gate drives (`44_gate_engine.md` R141). -/
def setInputWire (id : Nat) (value : List Tri) (e : Option Circuit) : Option Circuit × EngineResult :=
  match e with
  | none => (none, .noCircuit)
  | some c =>
    match c.wires[id]? with
    | none => (e, .unknownWire)
    | some w =>
      if value.length = w.width then
        (some { c with wires := c.wires.set id { w with bits := value }, stable := false }, .ok)
      else (e, .widthMismatch)

/-- `settle()` (`44_gate_engine.md` R142, R143). -/
def settle (cap : Nat) (e : Option Circuit) : Option Circuit × EngineResult :=
  match e with
  | none => (none, .noCircuit)
  | some c =>
    let r := settlePasses cap c
    let c' := { c with wires := r.wires, stable := r.converged }
    (some c', if r.converged then .settled c' else .nonConvergence r.count c')

/-- The bit at a DFF's input port 0 (`44_gate_engine.md` R134, R144). -/
def Gate.sample (wires : List Wire) (g : Gate) : Tri :=
  match g.inputs.head? with
  | some p => readPort wires p
  | none => .x

/-- A DFF takes the bit at its D input; every other gate is unchanged (`44_gate_engine.md` R144). -/
def Gate.clocked (wires : List Wire) (g : Gate) : Gate :=
  if g.isDff then { g with stored := some (g.sample wires) } else g

/-- `clockEdge()`: all DFFs sample before any is updated; no wire changes (`44_gate_engine.md` R144). -/
def clockEdge (e : Option Circuit) : Option Circuit × EngineResult :=
  match e with
  | none => (none, .noCircuit)
  | some c =>
    (some { c with gates := c.gates.map (Gate.clocked c.wires), cycle := c.cycle + 1, stable := false }, .ok)

/-- `getWire(id)` (`44_gate_engine.md` R145). -/
def getWire (id : Nat) (e : Option Circuit) : Option Circuit × EngineResult :=
  match e with
  | none => (none, .noCircuit)
  | some c =>
    match c.wires[id]? with
    | none => (e, .unknownWire)
    | some w => (e, .wire w)

/-- One operation of the engine with the cap `SETTLE_CAP`. -/
def engineOp (cap : Nat) (op : EngineOp) (e : Option Circuit) : Option Circuit × EngineResult :=
  match op with
  | .loadCircuit c => loadCircuit c e
  | .setInputWire id value => setInputWire id value e
  | .settle => settle cap e
  | .clockEdge => clockEdge e
  | .getWire id => getWire id e

/-- The engine executes one operation; the ISA Core and the controller are not touched (`60_exceptions.md` R211). -/
def applyEngine (op : EngineOp) (s : State) : State :=
  let r := engineOp s.config.settleCap op s.circuit
  { s with circuit := r.1, engineResult := some r.2 }

end Sys2Proof.Machine
end

