-- ==== Sys2Proof/Machine/Turn.lean ====
section
/-!
DEFINITION. The host's next input and what the hardware does with it (`00_scope.md` R2, `45_controller.md` R160 to R163;
log 2). The hardware does nothing on its own: the host sends commands, fires ticks and calls the engine.
-/

namespace Sys2Proof.Machine

/-- The host sends a command: it enters the command channel; a full channel has no step (`45_controller.md` R161, U9). -/
def sendCommand (c : Command) (s : State) : Host.Outcome State Fault Refusal :=
  if s.controller.commands.length < s.config.cmdFifoDepth then
    .next { s with controller := { s.controller with commands := s.controller.commands ++ [c] } }
  else .refused .commandChannelFull

/-- The controller takes its oldest pending command and processes it to completion (`45_controller.md` R161, R162). -/
def takeCommand (s : State) : Host.Outcome State Fault Refusal :=
  match s.controller.commands with
  | [] => .next s
  | c :: cs => command c { s with controller := { s.controller with commands := cs } }

/-- The host receives the oldest event (`45_controller.md` R161). -/
def receiveEvent (s : State) : State :=
  { s with controller := { s.controller with events := s.controller.events.tail } }

/-- One input of the host. -/
def input (i : Input) (s : State) : Host.Outcome State Fault Refusal :=
  match i with
  | .send c => sendCommand c s
  | .takeCommand => takeCommand s
  | .tick => tick s
  | .receiveEvent => .next (receiveEvent s)
  | .engine op => .next (applyEngine op s)

/-- The next action of the hardware, which is what the host's next input asks for. Without an input nothing happens: "nothing
else calls `step()`, `reset()` or `loadProgram()`" (`45_controller.md` R160; log 2). -/
def turn (s : State) : Host.Outcome State Fault Refusal :=
  match s.inputs with
  | i :: rest => input i { s with inputs := rest }
  | [] => .next s

end Sys2Proof.Machine
end

