-- ==== Sys2Proof/Machine/Step.lean ====
section
/-!
DEFINITION. The step of the whole machine, and the placing of one instruction where the step fetches its next.
-/

namespace Sys2Proof.Machine

/-- One action of the hardware (`00_scope.md` R2). -/
def step (s : State) : Host.Outcome State Fault Refusal := turn s

/-- The state with one instruction placed where the next step fetches it (log 15). -/
def State.withFetchWord (s : State) (nbits w : Nat) : State := placeInstruction s nbits w

end Sys2Proof.Machine
end

