-- ==== Sys2Proof/Safety.lean ====
section
/-!
DEFINITION. The legal states of the hardware (the invariants the spec states, `10_state.md` R19, R26, R28, `45_controller.md`
R180) and the vocabulary that the statements use.
-/

namespace Sys2Proof.Safety

open Sys2Proof Sys2Proof.Machine

/-- A list of addresses in strictly rising order: the one list that stands for a set of breakpoints (log 16). -/
def risingAddrs : List Addr → Bool
  | [] => true
  | [_] => true
  | a :: b :: bs => decide (a < b) && risingAddrs (b :: bs)

/-- The evaluation order's pass would change no bit: what `stable` promises (`10_state.md` R28). -/
def atFixpoint (c : Circuit) : Bool := !(pass (evalOrder c.gates) c.wires).2

/-- The parameters, the ISA Core and its memory are as the spec says they always are (`10_state.md` R19). -/
structure LegalCore (s : State) : Prop where
  /-- The parameters are admissible (`00_scope.md` R5). -/
  config : s.config.wellFormed = true
  /-- "PC < `MEM_SIZE` always" (R19 i, R12). -/
  pcInMemory : s.core.pc.toNat < s.config.memSize
  /-- "`errored` = 1 implies `halted` = 1" (R19 ii, R15). -/
  erroredHalted : s.core.errored = true → s.core.halted = true
  /-- "`errorCode` = 0 if and only if `errored` = 0" (R19 iv, R16). -/
  errorCodeNone : s.core.errorCode = .none ↔ s.core.errored = false
  /-- Memory is in its canonical form (log 1). -/
  memCanonical : s.core.mem.wf = true
  /-- Memory has no cell at or beyond `MEM_SIZE` (R18). -/
  memBelow : s.core.mem.below s.config.memSize = true

/-- The controller is as the spec says it always is. -/
structure LegalController (s : State) : Prop where
  /-- "`running` = 1 implies the core is Ready" (`45_controller.md` R180). -/
  runningReady : s.controller.running = true → s.core.halted = false
  /-- The breakpoint set is in its one form (log 16). -/
  breakpointsRising : risingAddrs s.controller.breakpoints = true
  /-- The command channel is bounded (`45_controller.md` R161). -/
  commandsFit : s.controller.commands.length ≤ s.config.cmdFifoDepth
  /-- The event channel is bounded (`45_controller.md` R161). -/
  eventsFit : s.controller.events.length ≤ s.config.evtFifoDepth

/-- The engine's circuit, if there is one, is well-formed, and `stable` only at a fixpoint (`10_state.md` R26, R28 i). -/
structure LegalEngine (s : State) : Prop where
  circuitWellFormed : ∀ c, s.circuit = some c → c.wellFormed = true
  stableIsFixpoint : ∀ c, s.circuit = some c → c.stable = true → atFixpoint c = true

/-- A legal state of the whole hardware. -/
structure Legal (s : State) : Prop where
  core : LegalCore s
  controller : LegalController s
  engine : LegalEngine s

/-- The host lets the controller take its oldest command `c` next; `cs` and `ins` are the commands and inputs after it
(`45_controller.md` R161, R163). -/
def Taking (c : Command) (cs : List Command) (ins : List Input) (s : State) : Prop :=
  s.inputs = .takeCommand :: ins ∧ s.controller.commands = c :: cs

/-- The state with that command taken from its channel (`45_controller.md` R161). -/
def taken (cs : List Command) (ins : List Input) (s : State) : State :=
  { s with inputs := ins, controller := { s.controller with commands := cs } }

/-- The state after an error step: exactly the five fields of `60_exceptions.md` R204 are written, and `step()` returns 0. -/
def intoError (code : ErrorCode) (address : Nat) (op : Cell) (s : State) : State :=
  { s with
    core := { s.core with
      errored := true
      halted := true
      errorCode := code
      errorAddress := BitVec.ofNat 9 address
      errorOpcode := op }
    cyclesConsumed := 0 }

/-- The entry of `CYCLES` of an instruction (`40_step.md` R88). -/
def cyclesOf (t : CycleTable) : Instr → Nat
  | .hlt => t.hlt
  | .lda _ => t.lda
  | .sta _ => t.sta
  | .add _ => t.add
  | .sub _ => t.sub
  | .jmp _ => t.jmp
  | .jz _ => t.jz
  | .ldi _ => t.ldi
  | .cmp _ => t.cmp

/-- ACC after the instruction completes (`10_state.md` R11). -/
def accAfter (i : Instr) (s : State) : Cell :=
  match i with
  | .ldi imm => imm
  | .lda a => s.core.mem.read a.toNat
  | .add a => s.core.acc + s.core.mem.read a.toNat
  | .sub a => s.core.acc - s.core.mem.read a.toNat
  | .sta _ => s.core.acc
  | .cmp _ => s.core.acc
  | .jmp _ => s.core.acc
  | .jz _ => s.core.acc
  | .hlt => s.core.acc

/-- Z after the instruction completes (`42_arith_compare.md` R114). -/
def zAfter (i : Instr) (s : State) : Bool :=
  match i with
  | .ldi imm => decide (imm = 0)
  | .lda a => decide (s.core.mem.read a.toNat = 0)
  | .add a => decide (s.core.acc + s.core.mem.read a.toNat = 0)
  | .sub a => decide (s.core.acc - s.core.mem.read a.toNat = 0)
  | .cmp a => decide (s.core.acc = s.core.mem.read a.toNat)
  | .sta _ => s.core.zf
  | .jmp _ => s.core.zf
  | .jz _ => s.core.zf
  | .hlt => s.core.zf

/-- PC after the instruction completes (`10_state.md` R12). -/
def pcAfter (i : Instr) (s : State) : Addr :=
  match i with
  | .jmp a => a
  | .jz a => if s.core.zf then a else s.core.pc + 3
  | .hlt => s.core.pc + 1
  | .ldi _ => s.core.pc + 2
  | .lda _ => s.core.pc + 3
  | .sta _ => s.core.pc + 3
  | .add _ => s.core.pc + 3
  | .sub _ => s.core.pc + 3
  | .cmp _ => s.core.pc + 3

/-- MAR and MDR after the instruction completes (`40_step.md` R87). -/
def lastAccess (i : Instr) (s : State) : Addr × Cell :=
  match i with
  | .lda a => (a, s.core.mem.read a.toNat)
  | .add a => (a, s.core.mem.read a.toNat)
  | .sub a => (a, s.core.mem.read a.toNat)
  | .cmp a => (a, s.core.mem.read a.toNat)
  | .sta a => (a, s.core.acc)
  | .ldi imm => (s.core.pc + 1, imm)
  | .jmp a => (s.core.pc + 2, a.extractLsb' 0 4)
  | .jz a => (s.core.pc + 2, a.extractLsb' 0 4)
  | .hlt => (s.core.pc, 0)

/-- Memory after the instruction completes: only STA writes it (`10_state.md` R18). -/
def memAfter (i : Instr) (s : State) : Memory :=
  match i with
  | .sta a => s.core.mem.write a.toNat s.core.acc
  | .hlt => s.core.mem
  | .lda _ => s.core.mem
  | .add _ => s.core.mem
  | .sub _ => s.core.mem
  | .jmp _ => s.core.mem
  | .jz _ => s.core.mem
  | .ldi _ => s.core.mem
  | .cmp _ => s.core.mem

/-- The state after a completed instruction: every write of it, and nothing else (`40_step.md` R86 to R89). -/
def completed (i : Instr) (s : State) : State :=
  { s with
    core := { s.core with
      acc := accAfter i s
      zf := zAfter i s
      pc := pcAfter i s
      ir := opcodeOf i
      mar := (lastAccess i s).1
      mdr := (lastAccess i s).2
      halted := decide (i = .hlt) || s.core.halted
      cycleCount := s.core.cycleCount + BitVec.ofNat 32 (cyclesOf s.config.cycles i)
      instructionCount := s.core.instructionCount + 1
      mem := memAfter i s }
    cyclesConsumed := cyclesOf s.config.cycles i }

/-- The state with events appended to the event channel (`45_controller.md` R161). -/
def withEvents (es : List Event) (s : State) : State :=
  { s with controller := { s.controller with events := s.controller.events ++ es } }

/-- The event channel has room for `k` more events. -/
def RoomFor (k : Nat) (s : State) : Prop := s.controller.events.length + k ≤ s.config.evtFifoDepth

/-- The state after `k` calls of the ISA Core's `step()`, if none of them stops. -/
def coreSteps : Nat → State → Option State
  | 0, s => some s
  | k + 1, s =>
    match coreStep s with
    | .next t => coreSteps k t
    | .fault _ => none
    | .refused _ => none

/-- No combinational cycle: gates can be ranked so that every combinational gate that feeds another ranks below it
(`44_gate_engine.md` R138, R142). -/
def Acyclic (gates : List Gate) : Prop :=
  ∃ rank : Gate → Nat, ∀ h ∈ combinational gates, ∀ g ∈ combinational gates, feeds h g = true → rank h < rank g

/-- No two combinational gates drive one bit (`44_gate_engine.md` R142, R147). -/
def SingleDriver (gates : List Gate) : Prop :=
  ∀ g ∈ combinational gates, ∀ h ∈ combinational gates, ∀ p, p ∈ g.outputs → p ∈ h.outputs → g = h

/-- No combinational gate drives a bit that a DFF drives. -/
def DffBitsOwn (gates : List Gate) : Prop :=
  ∀ g ∈ gates, ∀ h ∈ gates, g.isDff = true → h.isDff = false → ∀ p, p ∈ g.outputs → p ∉ h.outputs

/-- Among the gates `left` that are not yet placed, `g` waits for none of them (`44_gate_engine.md` R138). -/
def Ready (left : List Gate) (g : Gate) : Prop := ∀ h ∈ left, feeds h g = false

/-- The wires after `k` passes, one after the other (`44_gate_engine.md` R139). -/
def afterPasses (order : List Gate) (k : Nat) (wires : List Wire) : List Wire :=
  (fun w => (pass order w).1)^[k] wires

/-- The error cases that the format A instructions with a data access and a sequential next address share
(`60_exceptions.md` R202): the operand cells, then the data address, then the next PC. -/
def DataInstructionErrors (i : Instr) (op : Cell) (addr : Addr) (s : State) : Prop :=
  (s.config.memSize ≤ s.core.pc.toNat + 1 →
    exec i s = .next (intoError .addressOutOfRange (s.core.pc.toNat + 1) op s)) ∧
  (s.core.pc.toNat + 1 < s.config.memSize → s.config.memSize ≤ s.core.pc.toNat + 2 →
    exec i s = .next (intoError .addressOutOfRange (s.core.pc.toNat + 2) op s)) ∧
  (s.core.pc.toNat + 2 < s.config.memSize → s.config.memSize ≤ addr.toNat →
    exec i s = .next (intoError .addressOutOfRange addr.toNat op s)) ∧
  (s.core.pc.toNat + 2 < s.config.memSize → addr.toNat < s.config.memSize → s.config.memSize ≤ s.core.pc.toNat + 3 →
    exec i s = .next (intoError .addressOutOfRange (s.core.pc.toNat + 3) op s))

/-- The error cases of the two operand cells of a jump (`60_exceptions.md` R202). -/
def JumpOperandErrors (i : Instr) (op : Cell) (s : State) : Prop :=
  (s.config.memSize ≤ s.core.pc.toNat + 1 →
    exec i s = .next (intoError .addressOutOfRange (s.core.pc.toNat + 1) op s)) ∧
  (s.core.pc.toNat + 1 < s.config.memSize → s.config.memSize ≤ s.core.pc.toNat + 2 →
    exec i s = .next (intoError .addressOutOfRange (s.core.pc.toNat + 2) op s))

end Sys2Proof.Safety
end

