-- ==== Sys2Proof/Certificates/Slice0/Obligations.lean ====
section
/-!
DEFINITION. The statements for the provers, file by file of the spec: encoding, the step, the instructions, errors and reset,
the controller, the gate engine, the whole machine.
-/

open Sys2Proof Sys2Proof.Machine Sys2Proof.Safety

/-! ### Encoding (`30_encoding.md`) -/

/-- Decoding the cells of any instruction, followed by any other cells, gives the instruction back with every operand at every
value, and leaves the other cells (`30_encoding.md` R60 to R65). -/
def Obligations.DecodeInvertsEncode : Prop :=
  ∀ (i : Instr) (rest : List Cell), decode (encode i ++ rest) = .ok (i, rest)

/-- Cells decode to an instruction only if they are that instruction's encoding: "There are no ... encodings that execute as
another instruction" (`30_encoding.md` R67). -/
def Obligations.EncodeInvertsDecode : Prop :=
  ∀ (cells : List Cell) (i : Instr) (rest : List Cell), decode cells = .ok (i, rest) → cells = encode i ++ rest

/-- The decode table of `30_encoding.md` R69, every opcode with its format and length, and Illegal for the seven others. -/
def Obligations.DecodeTableIsTotal : Prop :=
  (∀ rest, decode (0x0 :: rest) = .ok (.hlt, rest)) ∧
  (∀ hi lo rest, decode (0x1 :: hi :: lo :: rest) = .ok (.lda (hi ++ lo), rest)) ∧
  (∀ hi lo rest, decode (0x2 :: hi :: lo :: rest) = .ok (.sta (hi ++ lo), rest)) ∧
  (∀ hi lo rest, decode (0x3 :: hi :: lo :: rest) = .ok (.add (hi ++ lo), rest)) ∧
  (∀ hi lo rest, decode (0x4 :: hi :: lo :: rest) = .ok (.sub (hi ++ lo), rest)) ∧
  (∀ hi lo rest, decode (0x5 :: hi :: lo :: rest) = .ok (.jmp (hi ++ lo), rest)) ∧
  (∀ hi lo rest, decode (0x6 :: hi :: lo :: rest) = .ok (.jz (hi ++ lo), rest)) ∧
  (∀ imm rest, decode (0x7 :: imm :: rest) = .ok (.ldi imm, rest)) ∧
  (∀ hi lo rest, decode (0x8 :: hi :: lo :: rest) = .ok (.cmp (hi ++ lo), rest)) ∧
  (∀ (op : Cell) rest, 0x9 ≤ op.toNat → decode (op :: rest) = .error (.illegalOpcode op)) ∧
  (∀ op : Cell, lengthOf op =
    if op = 0x0 then some 1 else if op = 0x7 then some 2 else if op.toNat ≤ 0x8 then some 3 else none)

/-- Scenario A's program is the nine cells `7 5 2 2 0 1 2 0 0`, each instruction at its address (`30_encoding.md` R72). -/
def Obligations.ScenarioAProgramCells : Prop :=
  encode (.ldi 5) ++ encode (.sta 0x20) ++ encode (.lda 0x20) ++ encode .hlt = [7, 5, 2, 2, 0, 1, 2, 0, 0] ∧
  decode [7, 5, 2, 2, 0, 1, 2, 0, 0] = .ok (.ldi 5, [2, 2, 0, 1, 2, 0, 0]) ∧
  decode [2, 2, 0, 1, 2, 0, 0] = .ok (.sta 0x20, [1, 2, 0, 0]) ∧
  decode [1, 2, 0, 0] = .ok (.lda 0x20, [0]) ∧
  decode [0] = .ok (.hlt, [])

/-! ### The step (`40_step.md`) -/

/-- When the cells at PC decode to an instruction, the core's `step()` is that instruction's effect and adds nothing to it
(`40_step.md` R82, R83). The machine's step runs it where the host lets the controller take a STEP command: it adds the taking of
the command, the end of a run on a halted core, and the report (`45_controller.md` R166). -/
def Obligations.StepRunsDecodedInstruction : Prop :=
  ∀ (s : State) (i : Instr) (rest : List Cell), s.core.halted = false → decode (fetchCells s) = .ok (i, rest) →
    coreStep s = exec i s ∧
    ∀ cs ins, Taking .step cs ins s →
      step s = andThen (exec i (taken cs ins s)) fun t => report (if t.core.halted then setRunning false t else t)

/-- When memory holds an instruction's cells at PC, the core's `step()` is that instruction's effect (`40_step.md` R82, R83). -/
def Obligations.CellsAtPcAreExecuted : Prop :=
  ∀ (s : State) (i : Instr),
    s.core.halted = false → s.core.pc.toNat + i.length ≤ s.config.memSize →
    (∀ k c, (encode i)[k]? = some c → s.core.mem.read (s.core.pc.toNat + k) = c) →
    coreStep s = exec i s

/-- A step on a halted core "changes no state at all ... and returns 0" (`40_step.md` R81). -/
def Obligations.HaltedStepChangesNothing : Prop :=
  ∀ s : State, s.core.halted = true → coreStep s = .next { s with cyclesConsumed := 0 }

/-- An illegal opcode cell ends the step in the error state before any operand is fetched (`60_exceptions.md` R201). -/
def Obligations.IllegalOpcodeRaisesInvalidOpcode : Prop :=
  ∀ s : State, s.core.halted = false → s.core.pc.toNat < s.config.memSize →
    0x9 ≤ (s.core.mem.read s.core.pc.toNat).toNat →
    coreStep s =
      .next (intoError .invalidOpcode s.core.pc.toNat (s.core.mem.read s.core.pc.toNat) s)

/-- An instruction whose operand cells run past memory ends the step in the error state with the address of the first cell
that does not exist, which is `MEM_SIZE` (`40_step.md` R83, `20_memory.md` R43). -/
def Obligations.MissingOperandCellRaisesAddressOutOfRange : Prop :=
  ∀ (s : State) (n : Nat), s.core.halted = false → s.core.pc.toNat < s.config.memSize →
    lengthOf (s.core.mem.read s.core.pc.toNat) = some n → s.config.memSize < s.core.pc.toNat + n →
    coreStep s =
      .next (intoError .addressOutOfRange s.config.memSize (s.core.mem.read s.core.pc.toNat) s)

/-- A store is seen by the next fetch, "with nothing to do in between" (`20_memory.md` R52): after a completed STA the cell at
`addr` is fetched as ACC, wherever it lies in the next instruction. -/
def Obligations.StoreIsSeenByNextFetch : Prop :=
  ∀ (addr : Addr) (s t : State) (k : Nat), s.core.mem.wf = true → s.core.errored = false →
    exec (.sta addr) s = .next t → t.core.errored = false → k < 3 → t.core.pc.toNat + k = addr.toNat →
    (fetchCells t)[k]? = some s.core.acc

/-- The ISA Core's step is a function of CPU State and memory alone: what the controller and the engine hold makes no difference
(`40_step.md` R80, `10_state.md` R20). -/
def Obligations.CoreStepDependsOnCoreAlone : Prop :=
  ∀ s s' t : State, s.core = s'.core → s.config = s'.config → coreStep s = .next t →
    ∃ t', coreStep s' = .next t' ∧ t'.core = t.core ∧ t'.cyclesConsumed = t.cyclesConsumed

/-- "A step either commits every write of its instruction or commits none of them and enters the error state"
(`10_state.md` R19 iii): an error step writes the five error fields only, and any other end is the completed instruction, with
every write of it (ACC, Z, PC, IR, MAR, MDR, `halted`, memory, both counters), the new PC inside memory and nothing else. -/
def Obligations.InstructionIsAtomic : Prop :=
  ∀ (i : Instr) (s t : State), exec i s = .next t →
    (∃ a, t = intoError .addressOutOfRange a (opcodeOf i) s) ∨
    (t = completed i s ∧ t.core.pc.toNat < s.config.memSize)

/-- On commit IR, MAR and MDR hold the opcode and the address and cell of the last access (`40_step.md` R87). -/
def Obligations.CommitWritesIrMarMdr : Prop :=
  ∀ (i : Instr) (s t : State), s.core.errored = false → exec i s = .next t → t.core.errored = false →
    t.core.ir = opcodeOf i ∧
    (t.core.mar, t.core.mdr) =
      match i with
      | .lda a => (a, s.core.mem.read a.toNat)
      | .add a => (a, s.core.mem.read a.toNat)
      | .sub a => (a, s.core.mem.read a.toNat)
      | .cmp a => (a, s.core.mem.read a.toNat)
      | .sta a => (a, s.core.acc)
      | .ldi imm => (s.core.pc + 1, imm)
      | .jmp a => (s.core.pc + 2, a.extractLsb' 0 4)
      | .jz a => (s.core.pc + 2, a.extractLsb' 0 4)
      | .hlt => (s.core.pc, 0)

/-- The table of `CYCLES` (`40_step.md` R88): with it, a completed instruction returns its number and adds it to `cycleCount`. -/
def Obligations.CyclesFollowTheTable : Prop :=
  ∀ (i : Instr) (s t : State), s.config.cycles = CycleTable.reference → s.core.errored = false →
    exec i s = .next t → t.core.errored = false →
    t.cyclesConsumed =
      (match i with
      | .hlt => 1
      | .ldi _ => 2
      | .jmp _ => 3
      | .jz _ => 3
      | .lda _ => 4
      | .sta _ => 4
      | .add _ => 4
      | .sub _ => 4
      | .cmp _ => 4) ∧
    1 ≤ t.cyclesConsumed ∧
    t.core.cycleCount = s.core.cycleCount + BitVec.ofNat 32 t.cyclesConsumed

/-- Who writes Z and with what (`42_arith_compare.md` R114). -/
def Obligations.ZeroFlagWriters : Prop :=
  (∀ (i : Instr) (s t : State), s.core.errored = false → exec i s = .next t →
    t.core.zf =
      if t.core.errored then s.core.zf
      else
        match i with
        | .ldi imm => decide (imm = 0)
        | .lda a => decide (s.core.mem.read a.toNat = 0)
        | .add a => decide (s.core.acc + s.core.mem.read a.toNat = 0)
        | .sub a => decide (s.core.acc - s.core.mem.read a.toNat = 0)
        | .cmp a => decide (s.core.acc = s.core.mem.read a.toNat)
        | .sta _ => s.core.zf
        | .jmp _ => s.core.zf
        | .jz _ => s.core.zf
        | .hlt => s.core.zf) ∧
  (∀ s t : State, s.core.errored = false → coreStep s = .next t → t.core.errored = true → t.core.zf = s.core.zf) ∧
  (∀ s : State, (resetCore s).core.zf = false)

/-! ### The instructions (`41_load_store.md`, `42_arith_compare.md`, `43_control.md`) -/

/-- LDI: encoding, error cases, result and everything else unchanged (`41_load_store.md` R100). -/
def Obligations.LdiRule : Prop :=
  ∀ (imm : Cell) (s : State),
    encode (.ldi imm) = [0x7, imm] ∧ CycleTable.reference.ldi = 2 ∧
    (s.config.memSize ≤ s.core.pc.toNat + 1 →
      exec (.ldi imm) s = .next (intoError .addressOutOfRange (s.core.pc.toNat + 1) 0x7 s)) ∧
    (s.core.pc.toNat + 1 < s.config.memSize → s.config.memSize ≤ s.core.pc.toNat + 2 →
      exec (.ldi imm) s = .next (intoError .addressOutOfRange (s.core.pc.toNat + 2) 0x7 s)) ∧
    (s.core.pc.toNat + 2 < s.config.memSize →
      exec (.ldi imm) s = .next { s with
        core := { s.core with
          acc := imm, zf := decide (imm = 0), pc := s.core.pc + 2
          ir := 0x7, mar := s.core.pc + 1, mdr := imm
          cycleCount := s.core.cycleCount + BitVec.ofNat 32 s.config.cycles.ldi
          instructionCount := s.core.instructionCount + 1 }
        cyclesConsumed := s.config.cycles.ldi })

/-- LDA: encoding, error cases, result and everything else unchanged (`41_load_store.md` R101). -/
def Obligations.LdaRule : Prop :=
  ∀ (addr : Addr) (s : State),
    encode (.lda addr) = [0x1, addr.extractLsb' 4 4, addr.extractLsb' 0 4] ∧ CycleTable.reference.lda = 4 ∧
    DataInstructionErrors (.lda addr) 0x1 addr s ∧
    (s.core.pc.toNat + 3 < s.config.memSize → addr.toNat < s.config.memSize →
      exec (.lda addr) s = .next { s with
        core := { s.core with
          acc := s.core.mem.read addr.toNat, zf := decide (s.core.mem.read addr.toNat = 0), pc := s.core.pc + 3
          ir := 0x1, mar := addr, mdr := s.core.mem.read addr.toNat
          cycleCount := s.core.cycleCount + BitVec.ofNat 32 s.config.cycles.lda
          instructionCount := s.core.instructionCount + 1 }
        cyclesConsumed := s.config.cycles.lda })

/-- STA: encoding, error cases (nothing is stored), result and everything else unchanged (`41_load_store.md` R102). -/
def Obligations.StaRule : Prop :=
  ∀ (addr : Addr) (s : State),
    encode (.sta addr) = [0x2, addr.extractLsb' 4 4, addr.extractLsb' 0 4] ∧ CycleTable.reference.sta = 4 ∧
    DataInstructionErrors (.sta addr) 0x2 addr s ∧
    (s.core.pc.toNat + 3 < s.config.memSize → addr.toNat < s.config.memSize →
      exec (.sta addr) s = .next { s with
        core := { s.core with
          mem := s.core.mem.write addr.toNat s.core.acc, pc := s.core.pc + 3
          ir := 0x2, mar := addr, mdr := s.core.acc
          cycleCount := s.core.cycleCount + BitVec.ofNat 32 s.config.cycles.sta
          instructionCount := s.core.instructionCount + 1 }
        cyclesConsumed := s.config.cycles.sta } ∧
      (s.core.mem.wf = true → (s.core.mem.write addr.toNat s.core.acc).read addr.toNat = s.core.acc))

/-- ADD: encoding, error cases, the sum modulo 16 and Z, everything else unchanged (`42_arith_compare.md` R111). -/
def Obligations.AddRule : Prop :=
  ∀ (addr : Addr) (s : State),
    encode (.add addr) = [0x3, addr.extractLsb' 4 4, addr.extractLsb' 0 4] ∧ CycleTable.reference.add = 4 ∧
    DataInstructionErrors (.add addr) 0x3 addr s ∧
    (s.core.pc.toNat + 3 < s.config.memSize → addr.toNat < s.config.memSize →
      ∀ r : Cell, r.toNat = (s.core.acc.toNat + (s.core.mem.read addr.toNat).toNat) % 16 →
      exec (.add addr) s = .next { s with
        core := { s.core with
          acc := r, zf := decide (r = 0), pc := s.core.pc + 3
          ir := 0x3, mar := addr, mdr := s.core.mem.read addr.toNat
          cycleCount := s.core.cycleCount + BitVec.ofNat 32 s.config.cycles.add
          instructionCount := s.core.instructionCount + 1 }
        cyclesConsumed := s.config.cycles.add })

/-- SUB: encoding, error cases, the difference modulo 16 and Z, everything else unchanged; Z = 1 exactly when ACC equals the
cell (`42_arith_compare.md` R112). -/
def Obligations.SubRule : Prop :=
  ∀ (addr : Addr) (s : State),
    encode (.sub addr) = [0x4, addr.extractLsb' 4 4, addr.extractLsb' 0 4] ∧ CycleTable.reference.sub = 4 ∧
    DataInstructionErrors (.sub addr) 0x4 addr s ∧
    (s.core.pc.toNat + 3 < s.config.memSize → addr.toNat < s.config.memSize →
      ∀ r : Cell, (r.toNat : Int) = ((s.core.acc.toNat : Int) - (s.core.mem.read addr.toNat).toNat) % 16 →
      exec (.sub addr) s = .next { s with
        core := { s.core with
          acc := r, zf := decide (r = 0), pc := s.core.pc + 3
          ir := 0x4, mar := addr, mdr := s.core.mem.read addr.toNat
          cycleCount := s.core.cycleCount + BitVec.ofNat 32 s.config.cycles.sub
          instructionCount := s.core.instructionCount + 1 }
        cyclesConsumed := s.config.cycles.sub } ∧
      (r = 0 ↔ s.core.acc = s.core.mem.read addr.toNat))

/-- CMP: encoding, error cases, Z, everything else (ACC and memory among it) unchanged; "this is the same `Z` that `SUB addr`
would write" (`42_arith_compare.md` R113). -/
def Obligations.CmpRule : Prop :=
  ∀ (addr : Addr) (s : State),
    encode (.cmp addr) = [0x8, addr.extractLsb' 4 4, addr.extractLsb' 0 4] ∧ CycleTable.reference.cmp = 4 ∧
    DataInstructionErrors (.cmp addr) 0x8 addr s ∧
    (s.core.pc.toNat + 3 < s.config.memSize → addr.toNat < s.config.memSize →
      exec (.cmp addr) s = .next { s with
        core := { s.core with
          zf := decide (s.core.acc = s.core.mem.read addr.toNat), pc := s.core.pc + 3
          ir := 0x8, mar := addr, mdr := s.core.mem.read addr.toNat
          cycleCount := s.core.cycleCount + BitVec.ofNat 32 s.config.cycles.cmp
          instructionCount := s.core.instructionCount + 1 }
        cyclesConsumed := s.config.cycles.cmp }) ∧
    (∀ t u, exec (.cmp addr) s = .next t → exec (.sub addr) s = .next u → t.core.zf = u.core.zf)

/-- JMP: encoding, error cases, the target as new PC, everything else unchanged; the sequential address is not checked
(`43_control.md` R121). -/
def Obligations.JmpRule : Prop :=
  ∀ (addr : Addr) (s : State),
    encode (.jmp addr) = [0x5, addr.extractLsb' 4 4, addr.extractLsb' 0 4] ∧ CycleTable.reference.jmp = 3 ∧
    JumpOperandErrors (.jmp addr) 0x5 s ∧
    (s.core.pc.toNat + 2 < s.config.memSize → s.config.memSize ≤ addr.toNat →
      exec (.jmp addr) s = .next (intoError .addressOutOfRange addr.toNat 0x5 s)) ∧
    (s.core.pc.toNat + 2 < s.config.memSize → addr.toNat < s.config.memSize →
      exec (.jmp addr) s = .next { s with
        core := { s.core with
          pc := addr, ir := 0x5, mar := s.core.pc + 2, mdr := addr.extractLsb' 0 4
          cycleCount := s.core.cycleCount + BitVec.ofNat 32 s.config.cycles.jmp
          instructionCount := s.core.instructionCount + 1 }
        cyclesConsumed := s.config.cycles.jmp })

/-- JZ: encoding, error cases, the target when Z = 1 and the next address when Z = 0, everything else unchanged; "only the
address actually chosen is checked" (`43_control.md` R122). -/
def Obligations.JzRule : Prop :=
  ∀ (addr : Addr) (s : State),
    encode (.jz addr) = [0x6, addr.extractLsb' 4 4, addr.extractLsb' 0 4] ∧ CycleTable.reference.jz = 3 ∧
    JumpOperandErrors (.jz addr) 0x6 s ∧
    (s.core.pc.toNat + 2 < s.config.memSize → s.core.zf = true → s.config.memSize ≤ addr.toNat →
      exec (.jz addr) s = .next (intoError .addressOutOfRange addr.toNat 0x6 s)) ∧
    (s.core.pc.toNat + 2 < s.config.memSize → s.core.zf = false → s.config.memSize ≤ s.core.pc.toNat + 3 →
      exec (.jz addr) s = .next (intoError .addressOutOfRange (s.core.pc.toNat + 3) 0x6 s)) ∧
    (s.core.pc.toNat + 2 < s.config.memSize → s.core.zf = true → addr.toNat < s.config.memSize →
      exec (.jz addr) s = .next { s with
        core := { s.core with
          pc := addr, ir := 0x6, mar := s.core.pc + 2, mdr := addr.extractLsb' 0 4
          cycleCount := s.core.cycleCount + BitVec.ofNat 32 s.config.cycles.jz
          instructionCount := s.core.instructionCount + 1 }
        cyclesConsumed := s.config.cycles.jz }) ∧
    (s.core.pc.toNat + 3 < s.config.memSize → s.core.zf = false →
      exec (.jz addr) s = .next { s with
        core := { s.core with
          pc := s.core.pc + 3, ir := 0x6, mar := s.core.pc + 2, mdr := addr.extractLsb' 0 4
          cycleCount := s.core.cycleCount + BitVec.ofNat 32 s.config.cycles.jz
          instructionCount := s.core.instructionCount + 1 }
        cyclesConsumed := s.config.cycles.jz })

/-- HLT: encoding, the error step in the last cell, and otherwise `halted` set and counted, everything else unchanged; every
later step is the no-op (`43_control.md` R123). -/
def Obligations.HltRule : Prop :=
  ∀ s : State,
    encode .hlt = [0x0] ∧ CycleTable.reference.hlt = 1 ∧
    (s.config.memSize ≤ s.core.pc.toNat + 1 →
      exec .hlt s = .next (intoError .addressOutOfRange (s.core.pc.toNat + 1) 0x0 s)) ∧
    (s.core.pc.toNat + 1 < s.config.memSize →
      ∃ t, exec .hlt s = .next t ∧
        t = { s with
          core := { s.core with
            halted := true, pc := s.core.pc + 1, ir := 0x0, mar := s.core.pc, mdr := 0x0
            cycleCount := s.core.cycleCount + BitVec.ofNat 32 s.config.cycles.hlt
            instructionCount := s.core.instructionCount + 1 }
          cyclesConsumed := s.config.cycles.hlt } ∧
        coreStep t = .next { t with cyclesConsumed := 0 })

/-- STA changes the one cell at `addr`, which then holds ACC; every other cell reads as before; ACC, Z, the error fields and
every other part of the hardware stay; an STA that ends in an error stores nothing (`41_load_store.md` R102). -/
def Obligations.StaFrame : Prop :=
  ∀ (addr : Addr) (s t : State), s.core.mem.wf = true → s.core.errored = false → exec (.sta addr) s = .next t →
    (∀ a, a ≠ addr.toNat → t.core.mem.read a = s.core.mem.read a) ∧
    t.core.mem.read addr.toNat = (if t.core.errored then s.core.mem.read addr.toNat else s.core.acc) ∧
    t.core.acc = s.core.acc ∧ t.core.zf = s.core.zf ∧
    (t.core.errored = false →
      t.core.halted = s.core.halted ∧ t.core.errorCode = s.core.errorCode ∧
      t.core.errorAddress = s.core.errorAddress ∧ t.core.errorOpcode = s.core.errorOpcode) ∧
    t.config = s.config ∧ t.circuit = s.circuit ∧ t.controller = s.controller ∧
    t.engineResult = s.engineResult ∧ t.inputs = s.inputs

/-- HLT, LDA, ADD, SUB, JMP, JZ, LDI and CMP store nothing: every cell reads as before. ACC stays for HLT, JMP, JZ and CMP, Z
for HLT, JMP and JZ, `halted` for all but HLT, the error fields unless the step is an error step; every other part of the
hardware stays. -/
def Obligations.NonStoringFrame : Prop :=
  ∀ (i : Instr) (s t : State), (∀ a, i ≠ .sta a) → s.core.errored = false → exec i s = .next t →
    (∀ a, t.core.mem.read a = s.core.mem.read a) ∧
    ((i = .hlt ∨ (∃ a, i = .jmp a) ∨ (∃ a, i = .jz a) ∨ (∃ a, i = .cmp a)) → t.core.acc = s.core.acc) ∧
    ((i = .hlt ∨ (∃ a, i = .jmp a) ∨ (∃ a, i = .jz a)) → t.core.zf = s.core.zf) ∧
    (t.core.errored = false →
      (i ≠ .hlt → t.core.halted = s.core.halted) ∧ t.core.errorCode = s.core.errorCode ∧
      t.core.errorAddress = s.core.errorAddress ∧ t.core.errorOpcode = s.core.errorOpcode) ∧
    t.config = s.config ∧ t.circuit = s.circuit ∧ t.controller = s.controller ∧
    t.engineResult = s.engineResult ∧ t.inputs = s.inputs

/-- The core's state machine (`40_step.md` R91): from Ready, a step that completes HLT gives Halted, one that completes another
instruction gives Ready, one that raises gives Errored; and the HLT that control reaches sets `halted` at that step, not
earlier and not later (`43_control.md` R124). -/
def Obligations.OnlyHltHaltsWithoutError : Prop :=
  ∀ (i : Instr) (s t : State), s.core.halted = false → s.core.errored = false → exec i s = .next t →
    (t.core.errored = false → (t.core.halted = true ↔ i = .hlt)) ∧ (t.core.errored = true → t.core.halted = true)

/-! ### Reset, load, errors (`10_state.md`, `20_memory.md`, `60_exceptions.md`, `70_reset_and_hazards.md`) -/

/-- What power-up leaves (`10_state.md` R34, `45_controller.md` R178): every register, flag, counter and cell 0, the controller
Idle with no breakpoints and the one event READY, no circuit, and admissible parameters with `MEM_SIZE` = 256, the cycles of R88
and a reset that clears memory (93 U1). That no input waits and nothing was returned yet is the model's own (log 2, 7, 8). -/
def Obligations.PowerUpState : Prop :=
  State.reset.core.pc = 0 ∧ State.reset.core.acc = 0 ∧ State.reset.core.zf = false ∧
  State.reset.core.ir = 0 ∧ State.reset.core.mar = 0 ∧ State.reset.core.mdr = 0 ∧
  State.reset.core.halted = false ∧ State.reset.core.errored = false ∧
  State.reset.core.errorCode = .none ∧ State.reset.core.errorAddress = 0 ∧ State.reset.core.errorOpcode = 0 ∧
  State.reset.core.cycleCount = 0 ∧ State.reset.core.instructionCount = 0 ∧
  (∀ a, State.reset.core.mem.read a = 0) ∧
  State.reset.controller.running = false ∧ State.reset.controller.speed = 0 ∧
  State.reset.controller.breakpoints = [] ∧ State.reset.controller.commands = [] ∧
  State.reset.controller.events = [.ready] ∧ State.reset.circuit = none ∧
  State.reset.config.memSize = 256 ∧ State.reset.config.cycles = CycleTable.reference ∧
  State.reset.config.resetClearsMemory = true ∧ State.reset.config.wellFormed = true ∧
  State.reset.cyclesConsumed = 0 ∧ State.reset.engineResult = none ∧ State.reset.inputs = []

/-- `reset()` of the ISA Core writes every register, flag and counter 0 and every cell 0, and the status is Ready
(`70_reset_and_hazards.md` R231). R231 clears memory without condition; that a machine whose parameter `RESET_CLEARS_MEMORY` is
false keeps its cells is 93 U1, as the model reads it (log 4, DEDUCED). -/
def Obligations.CoreResetZeroesEverything : Prop :=
  ∀ s : State,
    (resetCore s).core.pc = 0 ∧ (resetCore s).core.acc = 0 ∧ (resetCore s).core.zf = false ∧
    (resetCore s).core.ir = 0 ∧ (resetCore s).core.mar = 0 ∧ (resetCore s).core.mdr = 0 ∧
    (resetCore s).core.halted = false ∧ (resetCore s).core.errored = false ∧
    (resetCore s).core.errorCode = .none ∧ (resetCore s).core.errorAddress = 0 ∧ (resetCore s).core.errorOpcode = 0 ∧
    (resetCore s).core.cycleCount = 0 ∧ (resetCore s).core.instructionCount = 0 ∧
    (s.config.resetClearsMemory = true → ∀ a, (resetCore s).core.mem.read a = 0) ∧
    (s.config.resetClearsMemory = false → (resetCore s).core.mem = s.core.mem) ∧
    (resetCore s).circuit = s.circuit ∧ (resetCore s).controller = s.controller ∧ (resetCore s).config = s.config

/-- A core that is reset and run with no program halts at once (`70_reset_and_hazards.md` R235), and so does a core that comes
to any cleared cell whose next address exists. -/
def Obligations.ClearedCellHaltsAtOnce : Prop :=
  (∃ t, coreStep State.reset = .next t ∧ t.core.halted = true ∧ t.core.errored = false ∧ t.core.pc = 1 ∧
    t.core.instructionCount = 1 ∧ t.core.cycleCount = 1) ∧
  (∀ s : State, s.config.wellFormed = true → s.core.halted = false → s.core.pc.toNat + 1 < s.config.memSize →
    s.core.mem.read s.core.pc.toNat = 0 →
    ∃ t, coreStep s = .next t ∧ t.core.halted = true ∧ t.core.errored = s.core.errored ∧
      t.core.pc.toNat = s.core.pc.toNat + 1 ∧ t.core.instructionCount = s.core.instructionCount + 1)

/-- `loadProgram(words, startAddress)` (`20_memory.md` R54): a payload that does not fit writes no cell and enters the error
state with `errorAddress` = max(startAddress, `MEM_SIZE`) and `errorOpcode` = 0; one that fits writes its cells and nothing
else, in every status of the core. An absent start address is 0. -/
def Obligations.LoadProgramWritesAllOrNothing : Prop :=
  ∀ (words : List Cell) (start : Addr) (s : State), s.core.mem.wf = true → s.config.memSize ≤ 256 →
    (s.config.memSize < start.toNat + words.length →
      loadProgram words start s = { s with
        core := { s.core with
          errored := true, halted := true, errorCode := .addressOutOfRange
          errorAddress := BitVec.ofNat 9 (max start.toNat s.config.memSize), errorOpcode := 0 } } ∧
      (BitVec.ofNat 9 (max start.toNat s.config.memSize)).toNat = max start.toNat s.config.memSize) ∧
    (start.toNat + words.length ≤ s.config.memSize →
      (∀ k v, words[k]? = some v → (loadProgram words start s).core.mem.read (start.toNat + k) = v) ∧
      (∀ a, a < start.toNat ∨ start.toNat + words.length ≤ a →
        (loadProgram words start s).core.mem.read a = s.core.mem.read a) ∧
      ∃ m, loadProgram words start s = { s with core := { s.core with mem := m } }) ∧
    command (.loadProgram words none) s = command (.loadProgram words (some 0)) s

/-- Halted and Errored "are terminal until an explicit reset" (`60_exceptions.md` R207): from a halted core every step of the
whole machine leaves `halted` and `errored` as they are, unless the controller takes RESET or LOAD_PROGRAM. -/
def Obligations.HaltIsTerminalUntilReset : Prop :=
  ∀ s t : State, Legal s → s.core.halted = true → step s = .next t →
    (t.core.halted = true ∧ t.core.errored = s.core.errored ∧ t.core.pc = s.core.pc ∧
      t.core.instructionCount = s.core.instructionCount) ∨
    (s.inputs.head? = some .takeCommand ∧
      (s.controller.commands.head? = some .reset ∨
        ∃ words start, s.controller.commands.head? = some (.loadProgram words start)))

/-! ### The Execution Controller (`45_controller.md`) -/

/-- `report()` emits the one event that fits the core's status (`45_controller.md` R164), with a snapshot of the core, its memory
among it, and of the controller's `running`, `speed` and `breakpoints` at that moment (`10_state.md` R33). -/
def Obligations.ReportFitsStatus : Prop :=
  ∀ s : State, ((snapshot s).core = s.core ∧ (snapshot s).running = s.controller.running ∧
      (snapshot s).speed = s.controller.speed ∧ (snapshot s).breakpoints = s.controller.breakpoints) ∧
    (RoomFor 1 s →
    (s.core.errored = true → report s = .next (withEvents
      [.error s.core.errorCode s.core.errorAddress s.core.errorOpcode (snapshot s)] s)) ∧
    (s.core.errored = false → s.core.halted = true → report s = .next (withEvents [.halted (snapshot s)] s)) ∧
    (s.core.errored = false → s.core.halted = false → report s = .next (withEvents [.stateUpdate (snapshot s)] s)))

/-- LOAD_PROGRAM stops the run, resets the core, loads at the start address (0 if there is none) and reports: STATE_UPDATE with
PC 0 when the payload fits, ERROR(2, max(start, `MEM_SIZE`), 0) and a memory of zeros when it does not; breakpoints and
speed are kept, and an empty payload gives a cleared core (`45_controller.md` R165). -/
def Obligations.LoadProgramCommandRule : Prop :=
  ∀ (words : List Cell) (start : Option Addr) (s u : State), RoomFor 1 s →
    u = loadProgram words (start.getD 0) (resetCore (setRunning false s)) →
    u.controller = { s.controller with running := false } ∧ u.core.pc = 0 ∧
    (words = [] → (start.getD 0).toNat ≤ s.config.memSize → s.config.resetClearsMemory = true → u.core = IsaCore.init) ∧
    (s.config.memSize < (start.getD 0).toNat + words.length → s.config.resetClearsMemory = true →
      ∀ a, u.core.mem.read a = 0) ∧
    ((start.getD 0).toNat + words.length ≤ s.config.memSize →
      command (.loadProgram words start) s = .next (withEvents [.stateUpdate (snapshot u)] u)) ∧
    (s.config.memSize < (start.getD 0).toNat + words.length →
      command (.loadProgram words start) s = .next (withEvents
        [.error .addressOutOfRange (BitVec.ofNat 9 (max (start.getD 0).toNat s.config.memSize)) 0 (snapshot u)] u))

/-- STEP executes one `step()` whatever the breakpoints, leaves Running if the core is done, and reports once
(`45_controller.md` R166). -/
def Obligations.StepCommandRule : Prop :=
  ∀ s t : State, RoomFor 1 s → coreStep s = .next t →
    (t.core.halted = true → command .step s = report (setRunning false t)) ∧
    (t.core.halted = false → command .step s = report t) ∧
    ∃ e, ∃ r, command .step s = .next (withEvents [e] { t with controller := { s.controller with running := r } }) ∧
      r = (s.controller.running && !t.core.halted)

/-- RUN: a no-op while Running, HALTED or ERROR on a core that is done, else it arms the timer and stores the speed, with no
event (`45_controller.md` R167). SET_SPEED replaces the speed while Running and does nothing in Idle; no event and no other
change (R171). -/
def Obligations.RunAndSetSpeedCommandRules : Prop :=
  ∀ (speed : Nat) (s : State),
    (s.controller.running = true → command (.run speed) s = .next s) ∧
    (s.controller.running = false → s.core.halted = true → command (.run speed) s = report s) ∧
    (s.controller.running = false → s.core.halted = false →
      command (.run speed) s = .next { s with controller := { s.controller with running := true, speed := speed } }) ∧
    (s.controller.running = true →
      command (.setSpeed speed) s = .next { s with controller := { s.controller with speed := speed } }) ∧
    (s.controller.running = false → command (.setSpeed speed) s = .next s)

/-- STOP stops the run and emits STATE_UPDATE, in either state and every status of the core; in Idle it changes nothing else
(`45_controller.md` R169). GET_STATE emits STATE_UPDATE and changes nothing else (R172). -/
def Obligations.StopAndGetStateCommandRules : Prop :=
  ∀ s : State, RoomFor 1 s →
    command .stop s = .next (withEvents [.stateUpdate (snapshot (setRunning false s))] (setRunning false s)) ∧
    (s.controller.running = false → command .stop s = .next (withEvents [.stateUpdate (snapshot s)] s)) ∧
    command .getState s = .next (withEvents [.stateUpdate (snapshot s)] s)

/-- RESET stops the run, resets the core, keeps breakpoints and speed, and emits STATE_UPDATE (`45_controller.md` R170). -/
def Obligations.ResetCommandRule : Prop :=
  ∀ s : State, RoomFor 1 s →
    ∃ t, command .reset s = .next (withEvents [.stateUpdate (snapshot t)] t) ∧
      t.core = (resetCore s).core ∧ t.controller = { s.controller with running := false } ∧ t.circuit = s.circuit

/-- BP_ADD and BP_REMOVE edit the set and emit nothing; BP_QUERY emits a STATE_UPDATE whose snapshot carries the set
(`45_controller.md` R176); adding a present address and removing an absent one change nothing (`10_state.md` R30). -/
def Obligations.BreakpointCommandRules : Prop :=
  ∀ (a : Addr) (s : State), risingAddrs s.controller.breakpoints = true →
    (∃ bs, command (.bpAdd a) s = .next { s with controller := { s.controller with breakpoints := bs } } ∧
      (∀ b, b ∈ bs ↔ b = a ∨ b ∈ s.controller.breakpoints) ∧
      (a ∈ s.controller.breakpoints → bs = s.controller.breakpoints)) ∧
    (∃ bs, command (.bpRemove a) s = .next { s with controller := { s.controller with breakpoints := bs } } ∧
      (∀ b, b ∈ bs ↔ b ≠ a ∧ b ∈ s.controller.breakpoints) ∧
      (a ∉ s.controller.breakpoints → bs = s.controller.breakpoints)) ∧
    (RoomFor 1 s → command .bpQuery s = .next (withEvents [.stateUpdate (snapshot s)] s) ∧
      (snapshot s).breakpoints = s.controller.breakpoints)

/-- A tick in Idle does nothing (`45_controller.md` R168); one that meets no halt, no error and no breakpoint executes exactly
its `n` instructions, stays Running and emits one STATE_UPDATE of the last state. -/
def Obligations.UninterruptedTickRunsWholeBatch : Prop :=
  (∀ s : State, s.controller.running = false → tick s = .next s) ∧
  (∀ (s t : State) (n : Nat), s.controller.running = true → RoomFor 1 s →
    n = (if s.controller.speed = 0 then s.config.fastestBatch else s.controller.speed) →
    coreSteps n s = some t →
    (∀ k u, 0 < k → k ≤ n → coreSteps k s = some u →
      u.core.halted = false ∧ u.core.pc ∉ s.controller.breakpoints) →
    tick s = .next (withEvents [.stateUpdate (snapshot t)] t) ∧ t.controller.running = true)

/-- A tick stops at the first instruction after which the core is halted or errored: the run ends and that status is
reported, also when the PC is a breakpoint (`45_controller.md` R168, R173). -/
def Obligations.HaltEndsTheRun : Prop :=
  ∀ (s t : State) (n k : Nat), s.controller.running = true →
    n = (if s.controller.speed = 0 then s.config.fastestBatch else s.controller.speed) →
    0 < k → k ≤ n → coreSteps k s = some t → t.core.halted = true →
    (∀ j u, 0 < j → j < k → coreSteps j s = some u →
      u.core.halted = false ∧ u.core.pc ∉ s.controller.breakpoints) →
    tick s = report (setRunning false t)

/-- A tick stops at the first instruction that leads to a breakpoint: the run ends, BREAKPOINT_HIT and a final STATE_UPDATE are
emitted, the instruction at the breakpoint is not executed, and the breakpoint stays in the set (`45_controller.md` R174). At least one instruction is executed
before the first test, so the breakpoint a run starts at is not hit again at once (R175). -/
def Obligations.BreakpointEndsTheRun : Prop :=
  ∀ (s t : State) (n k : Nat), s.controller.running = true → RoomFor 2 s →
    n = (if s.controller.speed = 0 then s.config.fastestBatch else s.controller.speed) →
    0 < k → k ≤ n → coreSteps k s = some t → t.core.halted = false → t.core.pc ∈ s.controller.breakpoints →
    (∀ j u, 0 < j → j < k → coreSteps j s = some u →
      u.core.halted = false ∧ u.core.pc ∉ s.controller.breakpoints) →
    tick s = .next (withEvents
      [.breakpointHit t.core.pc, .stateUpdate (snapshot (setRunning false t))] (setRunning false t)) ∧
    t.controller.breakpoints = s.controller.breakpoints

/-- What a step of the whole machine does with each input of the host, and that without an input nothing happens
(`00_scope.md` R2, `45_controller.md` R160, R163; log 2). Commands are processed in the order they were sent (R161): sending
appends, and the controller takes the oldest; with none pending nothing happens. A tick is the controller's (R168), an engine
operation the engine's, whose circuit and result it leaves (`44_gate_engine.md` R140 to R145). Events are received in the order they were emitted. A full channel has no step: the
model refuses, under a name of its own (93_implementation_defined.md U9, log 9). -/
def Obligations.ChannelsAreBoundedFifos : Prop :=
  (∀ s : State, s.inputs = [] → step s = .next s) ∧
  (∀ (s : State) (rest : List Input), s.inputs = .tick :: rest → step s = tick { s with inputs := rest }) ∧
  (∀ (s : State) (op : EngineOp) (rest : List Input), s.inputs = .engine op :: rest →
    step s = .next { s with
      inputs := rest
      circuit := (engineOp s.config.settleCap op s.circuit).1
      engineResult := some (engineOp s.config.settleCap op s.circuit).2 }) ∧
  (∀ (s : State) (c : Command) (rest : List Input), s.inputs = .send c :: rest →
    s.controller.commands.length < s.config.cmdFifoDepth →
    step s = .next { s with
      inputs := rest, controller := { s.controller with commands := s.controller.commands ++ [c] } }) ∧
  (∀ (s : State) (c : Command) (cs : List Command) (rest : List Input), s.inputs = .takeCommand :: rest →
    s.controller.commands = c :: cs →
    step s = command c { s with inputs := rest, controller := { s.controller with commands := cs } }) ∧
  (∀ (s : State) (rest : List Input), s.inputs = .takeCommand :: rest → s.controller.commands = [] →
    step s = .next { s with inputs := rest }) ∧
  (∀ (e : Event) (s : State), RoomFor 1 s → emit e s = .next (withEvents [e] s)) ∧
  (∀ (s : State) (rest : List Input), s.inputs = .receiveEvent :: rest →
    step s = .next { s with
      inputs := rest, controller := { s.controller with events := s.controller.events.tail } }) ∧
  (∀ (e : Event) (s : State), s.controller.events.length = s.config.evtFifoDepth →
    emit e s = .refused .eventChannelFull) ∧
  (∀ (c : Command) (s : State), s.controller.commands.length = s.config.cmdFifoDepth →
    sendCommand c s = .refused .commandChannelFull)

/-- "An event once emitted never changes" (`45_controller.md` R177): a step of the whole machine only appends events, unless
the host receives the oldest one. -/
def Obligations.EmittedEventsNeverChange : Prop :=
  ∀ s t : State, step s = .next t →
    (s.inputs.head? ≠ some .receiveEvent → s.controller.events <+: t.controller.events) ∧
    (s.inputs.head? = some .receiveEvent → t.controller.events = s.controller.events.tail)

/-! ### The Gate Evaluation Engine (`44_gate_engine.md`) -/

/-- The three-valued tables, every entry (`44_gate_engine.md` R130 to R133). -/
def Obligations.ThreeValuedTables : Prop :=
  (Tri.not .zero = .one ∧ Tri.not .one = .zero ∧ Tri.not .x = .x) ∧
  (∀ (wires : List Wire) (g : Gate) (p : Port), g.inputs = [p] →
    (g.type = .buf → g.value wires = readPort wires p) ∧ (g.type = .not → g.value wires = Tri.not (readPort wires p))) ∧
  (∀ a b, Tri.and a b = if a = .zero ∨ b = .zero then .zero else if a = .one ∧ b = .one then .one else .x) ∧
  (∀ a b, Tri.or a b = if a = .one ∨ b = .one then .one else if a = .zero ∧ b = .zero then .zero else .x) ∧
  (∀ a b, Tri.xor a b = if a = .x ∨ b = .x then .x else if a = b then .zero else .one)

/-- The order of a gate's inputs does not matter: AND, OR and XOR gates whose inputs are a permutation of each other's have
the same value (`44_gate_engine.md` R135). -/
def Obligations.InputOrderDoesNotMatter : Prop :=
  ∀ (wires : List Wire) (g h : Gate), g.type = h.type → g.type = .and ∨ g.type = .or ∨ g.type = .xor →
    g.inputs.Perm h.inputs → g.value wires = h.value wires

/-- `loadCircuit`: a circuit that is not well-formed is refused and the old one kept; a well-formed one replaces it wholesale,
with `stable` false whatever it says (`44_gate_engine.md` R140). That a DFF without `stored` makes a circuit ill-formed is the
model's reading of R24 (log 12, DEDUCED), which R26 does not list. `getWire` hands out a copy of the wire, `UnknownWire` or
`NoCircuit`, and changes nothing (R145). -/
def Obligations.LoadCircuitAndGetWireRules : Prop :=
  ∀ (cap : Nat) (c : Circuit) (e : Option Circuit) (id : Nat),
    (c.wellFormed = false → engineOp cap (.loadCircuit c) e = (e, .malformedCircuit)) ∧
    (c.wellFormed = true → engineOp cap (.loadCircuit c) e = (some { c with stable := false }, .ok)) ∧
    engineOp cap (.getWire id) none = (none, .noCircuit) ∧
    (c.wires[id]? = none → engineOp cap (.getWire id) (some c) = (some c, .unknownWire)) ∧
    (∀ w, c.wires[id]? = some w → engineOp cap (.getWire id) (some c) = (some c, .wire w))

/-- `setInputWire` in all its cases; any wire may be set (`44_gate_engine.md` R141). -/
def Obligations.SetInputWireRule : Prop :=
  ∀ (cap id : Nat) (value : List Tri),
    engineOp cap (.setInputWire id value) none = (none, .noCircuit) ∧
    (∀ c, c.wires[id]? = none → engineOp cap (.setInputWire id value) (some c) = (some c, .unknownWire)) ∧
    (∀ c w, c.wires[id]? = some w → value.length ≠ w.width →
      engineOp cap (.setInputWire id value) (some c) = (some c, .widthMismatch)) ∧
    (∀ c w, c.wires[id]? = some w → value.length = w.width →
      ∃ c', engineOp cap (.setInputWire id value) (some c) = (some c', .ok) ∧
        c'.wires[id]? = some { w with bits := value } ∧ (∀ k, k ≠ id → c'.wires[k]? = c.wires[k]?) ∧
        c'.stable = false ∧ c'.gates = c.gates ∧ c'.cycle = c.cycle)

/-- The evaluation order (`44_gate_engine.md` R138): every combinational gate once; each place is taken by the gate with the
smallest id among the gates left that wait for none of the gates left, or, if every gate left waits, by the gate left with the
smallest id. Without a combinational cycle every gate comes after all gates that feed it, and no operation but `loadCircuit`
changes the order. -/
def Obligations.EvaluationOrderRule : Prop :=
  (∀ c : Circuit, c.wellFormed = true →
    (evalOrder c.gates).Perm (combinational c.gates) ∧
    (∀ (placed left : List Gate) (g : Gate), evalOrder c.gates = placed ++ g :: left →
      ((∃ f ∈ g :: left, Ready (g :: left) f) →
        Ready (g :: left) g ∧ ∀ f ∈ g :: left, Ready (g :: left) f → g.id ≤ f.id) ∧
      ((∀ f ∈ g :: left, ¬ Ready (g :: left) f) → ∀ f ∈ g :: left, g.id ≤ f.id)) ∧
    (Acyclic c.gates → (evalOrder c.gates).Pairwise fun g h => feeds h g = false)) ∧
  (∀ (cap : Nat) (op : EngineOp) (c c' : Circuit) (r : EngineResult), (∀ n, op ≠ .loadCircuit n) →
    engineOp cap op (some c) = (some c', r) →
    (evalOrder c'.gates).map Gate.id = (evalOrder c.gates).map Gate.id)

/-- `settle`: first the DFF outputs, then passes. It answers Ok with `stable` true after the first pass that changes nothing,
and `NonConvergence(SETTLE_CAP)` with `stable` false when that many passes each changed something; the bits are as the last
pass left them, and `stored` and `cycle` are untouched (`44_gate_engine.md` R142, R143). -/
def Obligations.SettleRule : Prop :=
  ∀ (cap : Nat), engineOp cap .settle none = (none, .noCircuit) ∧
  ∀ (c : Circuit) (order : List Gate) (w : List Wire),
    order = evalOrder c.gates → w = driveDffs c.gates c.wires →
    (∀ n, n < cap → (pass order (afterPasses order n w)).2 = false →
      (∀ k, k < n → (pass order (afterPasses order k w)).2 = true) →
      engineOp cap .settle (some c) =
        (some { c with wires := afterPasses order (n + 1) w, stable := true },
          .settled { c with wires := afterPasses order (n + 1) w, stable := true })) ∧
    ((∀ k, k < cap → (pass order (afterPasses order k w)).2 = true) →
      engineOp cap .settle (some c) =
        (some { c with wires := afterPasses order cap w, stable := false },
          .nonConvergence cap { c with wires := afterPasses order cap w, stable := false }))

/-- A settle that converges leaves every output bit of every combinational gate equal to the gate's value
(`44_gate_engine.md` R142, `10_state.md` R28 i). Any settle, converging or not, leaves every output bit of a DFF equal to its
`stored` bit, where no other gate drives that bit (R136, and the first loop of R142). -/
def Obligations.SettledCircuitIsConsistent : Prop :=
  ∀ (cap : Nat) (c c' : Circuit), c.wellFormed = true →
    (engineOp cap .settle (some c) = (some c', .settled c') →
      c'.stable = true ∧
      ∀ g ∈ combinational c.gates, ∀ p ∈ g.outputs, readPort c'.wires p = g.value c'.wires) ∧
    (∀ r, engineOp cap .settle (some c) = (some c', r) →
      ∀ g ∈ c.gates, g.isDff = true → ∀ p ∈ g.outputs, (∀ h ∈ c.gates, p ∈ h.outputs → h = g) →
        g.stored = some (readPort c'.wires p))

/-- A circuit without a combinational cycle and without two combinational drivers of one bit settles, in at most two passes,
with any admissible cap (`44_gate_engine.md` R142). -/
def Obligations.AcyclicCircuitSettlesInTwoPasses : Prop :=
  ∀ (cap : Nat) (c : Circuit), 2 ≤ cap → c.wellFormed = true → Acyclic c.gates → SingleDriver c.gates →
    (settlePasses cap c).count ≤ 2 ∧
    ∃ c', engineOp cap .settle (some c) = (some c', .settled c') ∧ c'.stable = true

/-- In such a circuit "the final bits are the unique assignment in which every driven bit equals its gate's value"
(`44_gate_engine.md` R142): two assignments that satisfy every gate and agree on the bits no combinational gate drives agree on
every bit. -/
def Obligations.AcyclicFixpointIsUnique : Prop :=
  ∀ (gates : List Gate) (w w' : List Wire), Acyclic gates →
    (∀ g ∈ combinational gates, ∀ p ∈ g.outputs, readPort w p = g.value w) →
    (∀ g ∈ combinational gates, ∀ p ∈ g.outputs, readPort w' p = g.value w') →
    (∀ p, (∀ g ∈ combinational gates, p ∉ g.outputs) → readPort w p = readPort w' p) →
    ∀ p, readPort w p = readPort w' p

/-- Calling `settle` twice with no change between gives the same wires and `stable` true both times, the second time in one
pass (`44_gate_engine.md` R146), provided no combinational gate drives a bit that a DFF drives. -/
def Obligations.SettleIsIdempotent : Prop :=
  ∀ (cap : Nat) (c c' : Circuit), c.wellFormed = true → DffBitsOwn c.gates →
    engineOp cap .settle (some c) = (some c', .settled c') →
    engineOp cap .settle (some c') = (some c', .settled c') ∧ (settlePasses cap c').count = 1

/-- A bit that no gate and no DFF drives keeps its value through `settle` (`44_gate_engine.md` R148). -/
def Obligations.UndrivenBitIsKept : Prop :=
  ∀ (cap : Nat) (c : Circuit) (p : Port), (∀ g ∈ c.gates, p ∉ g.outputs) →
    ∀ c' r, engineOp cap .settle (some c) = (some c', r) → readPort c'.wires p = readPort c.wires p

/-- `clockEdge`: every DFF samples the bit at its input port 0 before any is updated; `cycle` advances modulo 2^32, `stable`
is false, no wire changes; without a circuit `NoCircuit` (`44_gate_engine.md` R144). -/
def Obligations.ClockEdgeRule : Prop :=
  ∀ cap : Nat, engineOp cap .clockEdge none = (none, .noCircuit) ∧
  ∀ c : Circuit, ∃ c', engineOp cap .clockEdge (some c) = (some c', .ok) ∧
    c'.wires = c.wires ∧ c'.cycle = c.cycle + 1 ∧ c'.stable = false ∧ c'.gates.length = c.gates.length ∧
    ∀ (k : Nat) (g : Gate), c.gates[k]? = some g →
      (g.isDff = false → c'.gates[k]? = some g) ∧
      (∀ d, g.isDff = true → g.inputs.head? = some d →
        c'.gates[k]? = some { g with stored := some (readPort c.wires d) })

/-- "A DFF's stored value changes only at an explicit clock edge" (`10_state.md` R28 ii): no operation but `clockEdge` and
`loadCircuit` changes a gate. -/
def Obligations.StoredChangesOnlyAtClockEdge : Prop :=
  ∀ (cap : Nat) (op : EngineOp) (c c' : Circuit) (r : EngineResult),
    op ≠ .clockEdge → (∀ n, op ≠ .loadCircuit n) → engineOp cap op (some c) = (some c', r) →
    c'.gates = c.gates ∧ c'.cycle = c.cycle

/-! ### The whole machine -/

/-- The blocks are independent and the parameters fixed (`70_reset_and_hazards.md` R230, `60_exceptions.md` R211): a step that
is an engine operation leaves the core and the controller, any other step leaves the circuit, and no step writes the
parameters. -/
def Obligations.BlocksAreIndependent : Prop :=
  ∀ s t : State, step s = .next t →
    t.config = s.config ∧
    ((∃ op, s.inputs.head? = some (.engine op)) → t.core = s.core ∧ t.controller = s.controller) ∧
    ((∀ op, s.inputs.head? ≠ some (.engine op)) → t.circuit = s.circuit)

/-- The hardware is in a legal state at power-up (`10_state.md` R34, R19). -/
def Obligations.PowerUpIsLegal : Prop :=
  Legal State.reset

/-- Every step from a legal state leads to a legal state: PC inside memory, errored implies halted, the error code fits, memory
in its canonical form, Running implies Ready, bounded channels, a well-formed circuit, `stable` only at a fixpoint
(`10_state.md` R19, R26, R28, `45_controller.md` R180); and no step from a legal state faults (`40_step.md` R82). -/
def Obligations.LegalStatesAreKept : Prop :=
  ∀ s : State, Legal s → (∀ t, step s = .next t → Legal t) ∧ ∀ f, step s ≠ .fault f
end

