-- ==== Sys2Proof/Laws/State.lean ====
section
/-!
SUPPORT. One lemma per field per update of a record of the state, so that no proof unfolds a record update, and the two
lemmas that say everything `finishStep` and `loadProgram` can do.
-/

namespace Sys2Proof.Machine

open Sys2Proof.Safety

/-! Entering the error state. -/

@[simp] theorem IsaCore.raise_pc (x : Raised) (op : Cell) (c : IsaCore) : (c.raise x op).pc = c.pc := rfl
@[simp] theorem IsaCore.raise_acc (x : Raised) (op : Cell) (c : IsaCore) : (c.raise x op).acc = c.acc := rfl
@[simp] theorem IsaCore.raise_zf (x : Raised) (op : Cell) (c : IsaCore) : (c.raise x op).zf = c.zf := rfl
@[simp] theorem IsaCore.raise_ir (x : Raised) (op : Cell) (c : IsaCore) : (c.raise x op).ir = c.ir := rfl
@[simp] theorem IsaCore.raise_mar (x : Raised) (op : Cell) (c : IsaCore) : (c.raise x op).mar = c.mar := rfl
@[simp] theorem IsaCore.raise_mdr (x : Raised) (op : Cell) (c : IsaCore) : (c.raise x op).mdr = c.mdr := rfl
@[simp] theorem IsaCore.raise_halted (x : Raised) (op : Cell) (c : IsaCore) : (c.raise x op).halted = true := rfl
@[simp] theorem IsaCore.raise_errored (x : Raised) (op : Cell) (c : IsaCore) : (c.raise x op).errored = true := rfl
@[simp] theorem IsaCore.raise_errorCode (x : Raised) (op : Cell) (c : IsaCore) : (c.raise x op).errorCode = x.code :=
  rfl
@[simp] theorem IsaCore.raise_errorAddress (x : Raised) (op : Cell) (c : IsaCore) : (c.raise x op).errorAddress = BitVec.ofNat 9 x.address :=
  rfl
@[simp] theorem IsaCore.raise_errorOpcode (x : Raised) (op : Cell) (c : IsaCore) : (c.raise x op).errorOpcode = op :=
  rfl
@[simp] theorem IsaCore.raise_cycleCount (x : Raised) (op : Cell) (c : IsaCore) : (c.raise x op).cycleCount = c.cycleCount :=
  rfl
@[simp] theorem IsaCore.raise_instructionCount (x : Raised) (op : Cell) (c : IsaCore) : (c.raise x op).instructionCount = c.instructionCount :=
  rfl
@[simp] theorem IsaCore.raise_mem (x : Raised) (op : Cell) (c : IsaCore) : (c.raise x op).mem = c.mem := rfl

/-! Committing an instruction. -/

@[simp] theorem IsaCore.commit_pc (op : Cell) (n : Nat) (e : Effect) (c : IsaCore) :
    (c.commit op n e).pc = BitVec.ofNat 8 e.newPC :=
  rfl
@[simp] theorem IsaCore.commit_acc (op : Cell) (n : Nat) (e : Effect) (c : IsaCore) :
    (c.commit op n e).acc = e.acc :=
  rfl
@[simp] theorem IsaCore.commit_zf (op : Cell) (n : Nat) (e : Effect) (c : IsaCore) :
    (c.commit op n e).zf = e.zf :=
  rfl
@[simp] theorem IsaCore.commit_ir (op : Cell) (n : Nat) (e : Effect) (c : IsaCore) :
    (c.commit op n e).ir = op :=
  rfl
@[simp] theorem IsaCore.commit_mar (op : Cell) (n : Nat) (e : Effect) (c : IsaCore) :
    (c.commit op n e).mar = e.mar :=
  rfl
@[simp] theorem IsaCore.commit_mdr (op : Cell) (n : Nat) (e : Effect) (c : IsaCore) :
    (c.commit op n e).mdr = e.mdr :=
  rfl
@[simp] theorem IsaCore.commit_halted (op : Cell) (n : Nat) (e : Effect) (c : IsaCore) :
    (c.commit op n e).halted = (e.halt || c.halted) :=
  rfl
@[simp] theorem IsaCore.commit_errored (op : Cell) (n : Nat) (e : Effect) (c : IsaCore) :
    (c.commit op n e).errored = c.errored :=
  rfl
@[simp] theorem IsaCore.commit_errorCode (op : Cell) (n : Nat) (e : Effect) (c : IsaCore) :
    (c.commit op n e).errorCode = c.errorCode :=
  rfl
@[simp] theorem IsaCore.commit_errorAddress (op : Cell) (n : Nat) (e : Effect) (c : IsaCore) :
    (c.commit op n e).errorAddress = c.errorAddress :=
  rfl
@[simp] theorem IsaCore.commit_errorOpcode (op : Cell) (n : Nat) (e : Effect) (c : IsaCore) :
    (c.commit op n e).errorOpcode = c.errorOpcode :=
  rfl
@[simp] theorem IsaCore.commit_cycleCount (op : Cell) (n : Nat) (e : Effect) (c : IsaCore) :
    (c.commit op n e).cycleCount = c.cycleCount + BitVec.ofNat 32 n :=
  rfl
@[simp] theorem IsaCore.commit_instructionCount (op : Cell) (n : Nat) (e : Effect) (c : IsaCore) :
    (c.commit op n e).instructionCount = c.instructionCount + 1 :=
  rfl
@[simp] theorem IsaCore.commit_mem (op : Cell) (n : Nat) (e : Effect) (c : IsaCore) :
    (c.commit op n e).mem = c.mem.apply e.store :=
  rfl

/-! An error step. -/

@[simp] theorem errorStep_config (x : Raised) (op : Cell) (s : State) : (errorStep x op s).config = s.config := rfl
@[simp] theorem errorStep_core (x : Raised) (op : Cell) (s : State) : (errorStep x op s).core = s.core.raise x op := rfl
@[simp] theorem errorStep_circuit (x : Raised) (op : Cell) (s : State) : (errorStep x op s).circuit = s.circuit := rfl
@[simp] theorem errorStep_controller (x : Raised) (op : Cell) (s : State) : (errorStep x op s).controller = s.controller :=
  rfl
@[simp] theorem errorStep_cyclesConsumed (x : Raised) (op : Cell) (s : State) : (errorStep x op s).cyclesConsumed = 0 :=
  rfl
@[simp] theorem errorStep_engineResult (x : Raised) (op : Cell) (s : State) : (errorStep x op s).engineResult = s.engineResult :=
  rfl
@[simp] theorem errorStep_inputs (x : Raised) (op : Cell) (s : State) : (errorStep x op s).inputs = s.inputs := rfl

/-! The error state of the statements. -/

@[simp] theorem intoError_config (e : ErrorCode) (a : Nat) (op : Cell) (s : State) : (intoError e a op s).config = s.config :=
  rfl
@[simp] theorem intoError_core (e : ErrorCode) (a : Nat) (op : Cell) (s : State) : (intoError e a op s).core = s.core.raise ⟨e, a⟩ op :=
  rfl
@[simp] theorem intoError_circuit (e : ErrorCode) (a : Nat) (op : Cell) (s : State) : (intoError e a op s).circuit = s.circuit :=
  rfl
@[simp] theorem intoError_controller (e : ErrorCode) (a : Nat) (op : Cell) (s : State) : (intoError e a op s).controller = s.controller :=
  rfl
@[simp] theorem intoError_cyclesConsumed (e : ErrorCode) (a : Nat) (op : Cell) (s : State) : (intoError e a op s).cyclesConsumed = 0 :=
  rfl
@[simp] theorem intoError_engineResult (e : ErrorCode) (a : Nat) (op : Cell) (s : State) : (intoError e a op s).engineResult = s.engineResult :=
  rfl
@[simp] theorem intoError_inputs (e : ErrorCode) (a : Nat) (op : Cell) (s : State) : (intoError e a op s).inputs = s.inputs :=
  rfl

/-! Starting and stopping the run. -/

@[simp] theorem setRunning_config (b : Bool) (s : State) : (setRunning b s).config = s.config := rfl
@[simp] theorem setRunning_core (b : Bool) (s : State) : (setRunning b s).core = s.core := rfl
@[simp] theorem setRunning_circuit (b : Bool) (s : State) : (setRunning b s).circuit = s.circuit := rfl
@[simp] theorem setRunning_controller (b : Bool) (s : State) : (setRunning b s).controller = { s.controller with running := b } :=
  rfl
@[simp] theorem setRunning_cyclesConsumed (b : Bool) (s : State) : (setRunning b s).cyclesConsumed = s.cyclesConsumed :=
  rfl
@[simp] theorem setRunning_engineResult (b : Bool) (s : State) : (setRunning b s).engineResult = s.engineResult := rfl
@[simp] theorem setRunning_inputs (b : Bool) (s : State) : (setRunning b s).inputs = s.inputs := rfl

/-! Events emitted. -/

@[simp] theorem withEvents_config (es : List Event) (s : State) : (withEvents es s).config = s.config := rfl
@[simp] theorem withEvents_core (es : List Event) (s : State) : (withEvents es s).core = s.core := rfl
@[simp] theorem withEvents_circuit (es : List Event) (s : State) : (withEvents es s).circuit = s.circuit := rfl
@[simp] theorem withEvents_controller (es : List Event) (s : State) : (withEvents es s).controller = { s.controller with events := s.controller.events ++ es } :=
  rfl
@[simp] theorem withEvents_cyclesConsumed (es : List Event) (s : State) : (withEvents es s).cyclesConsumed = s.cyclesConsumed :=
  rfl
@[simp] theorem withEvents_engineResult (es : List Event) (s : State) : (withEvents es s).engineResult = s.engineResult :=
  rfl
@[simp] theorem withEvents_inputs (es : List Event) (s : State) : (withEvents es s).inputs = s.inputs := rfl

/-! An event received. -/

@[simp] theorem receiveEvent_config (s : State) : (receiveEvent s).config = s.config := rfl
@[simp] theorem receiveEvent_core (s : State) : (receiveEvent s).core = s.core := rfl
@[simp] theorem receiveEvent_circuit (s : State) : (receiveEvent s).circuit = s.circuit := rfl
@[simp] theorem receiveEvent_controller (s : State) : (receiveEvent s).controller = { s.controller with events := s.controller.events.tail } :=
  rfl
@[simp] theorem receiveEvent_cyclesConsumed (s : State) : (receiveEvent s).cyclesConsumed = s.cyclesConsumed := rfl
@[simp] theorem receiveEvent_engineResult (s : State) : (receiveEvent s).engineResult = s.engineResult := rfl
@[simp] theorem receiveEvent_inputs (s : State) : (receiveEvent s).inputs = s.inputs := rfl

/-! An engine operation. -/

@[simp] theorem applyEngine_config (op : EngineOp) (s : State) : (applyEngine op s).config = s.config := rfl
@[simp] theorem applyEngine_core (op : EngineOp) (s : State) : (applyEngine op s).core = s.core := rfl
@[simp] theorem applyEngine_circuit (op : EngineOp) (s : State) : (applyEngine op s).circuit = (engineOp s.config.settleCap op s.circuit).1 :=
  rfl
@[simp] theorem applyEngine_controller (op : EngineOp) (s : State) : (applyEngine op s).controller = s.controller := rfl
@[simp] theorem applyEngine_cyclesConsumed (op : EngineOp) (s : State) : (applyEngine op s).cyclesConsumed = s.cyclesConsumed :=
  rfl
@[simp] theorem applyEngine_engineResult (op : EngineOp) (s : State) : (applyEngine op s).engineResult = some (engineOp s.config.settleCap op s.circuit).2 :=
  rfl
@[simp] theorem applyEngine_inputs (op : EngineOp) (s : State) : (applyEngine op s).inputs = s.inputs := rfl

/-! The reset of the ISA Core. -/

@[simp] theorem resetCore_config (s : State) : (resetCore s).config = s.config := rfl
@[simp] theorem resetCore_circuit (s : State) : (resetCore s).circuit = s.circuit := rfl
@[simp] theorem resetCore_controller (s : State) : (resetCore s).controller = s.controller := rfl
@[simp] theorem resetCore_cyclesConsumed (s : State) : (resetCore s).cyclesConsumed = s.cyclesConsumed := rfl
@[simp] theorem resetCore_engineResult (s : State) : (resetCore s).engineResult = s.engineResult := rfl
@[simp] theorem resetCore_inputs (s : State) : (resetCore s).inputs = s.inputs := rfl
@[simp] theorem resetCore_core_pc (s : State) : (resetCore s).core.pc = IsaCore.init.pc := rfl
@[simp] theorem resetCore_core_acc (s : State) : (resetCore s).core.acc = IsaCore.init.acc := rfl
@[simp] theorem resetCore_core_zf (s : State) : (resetCore s).core.zf = IsaCore.init.zf := rfl
@[simp] theorem resetCore_core_ir (s : State) : (resetCore s).core.ir = IsaCore.init.ir := rfl
@[simp] theorem resetCore_core_mar (s : State) : (resetCore s).core.mar = IsaCore.init.mar := rfl
@[simp] theorem resetCore_core_mdr (s : State) : (resetCore s).core.mdr = IsaCore.init.mdr := rfl
@[simp] theorem resetCore_core_halted (s : State) : (resetCore s).core.halted = IsaCore.init.halted := rfl
@[simp] theorem resetCore_core_errored (s : State) : (resetCore s).core.errored = IsaCore.init.errored := rfl
@[simp] theorem resetCore_core_errorCode (s : State) : (resetCore s).core.errorCode = IsaCore.init.errorCode := rfl
@[simp] theorem resetCore_core_errorAddress (s : State) : (resetCore s).core.errorAddress = IsaCore.init.errorAddress :=
  rfl
@[simp] theorem resetCore_core_errorOpcode (s : State) : (resetCore s).core.errorOpcode = IsaCore.init.errorOpcode :=
  rfl
@[simp] theorem resetCore_core_cycleCount (s : State) : (resetCore s).core.cycleCount = IsaCore.init.cycleCount := rfl
@[simp] theorem resetCore_core_instructionCount (s : State) : (resetCore s).core.instructionCount = IsaCore.init.instructionCount :=
  rfl
@[simp] theorem resetCore_core_mem (s : State) :
    (resetCore s).core.mem = if s.config.resetClearsMemory then [] else s.core.mem :=
  rfl

/-! A program load touches the core only. -/

@[simp] theorem loadProgram_config (words : List Cell) (a : Addr) (s : State) :
    (loadProgram words a s).config = s.config := by
  unfold loadProgram; split <;> rfl
@[simp] theorem loadProgram_circuit (words : List Cell) (a : Addr) (s : State) :
    (loadProgram words a s).circuit = s.circuit := by
  unfold loadProgram; split <;> rfl
@[simp] theorem loadProgram_controller (words : List Cell) (a : Addr) (s : State) :
    (loadProgram words a s).controller = s.controller := by
  unfold loadProgram; split <;> rfl
@[simp] theorem loadProgram_cyclesConsumed (words : List Cell) (a : Addr) (s : State) :
    (loadProgram words a s).cyclesConsumed = s.cyclesConsumed := by
  unfold loadProgram; split <;> rfl
@[simp] theorem loadProgram_engineResult (words : List Cell) (a : Addr) (s : State) :
    (loadProgram words a s).engineResult = s.engineResult := by
  unfold loadProgram; split <;> rfl
@[simp] theorem loadProgram_inputs (words : List Cell) (a : Addr) (s : State) :
    (loadProgram words a s).inputs = s.inputs := by
  unfold loadProgram; split <;> rfl

/-! The end of an instruction touches the core and the returned value only. -/

@[simp] theorem finishStep_config (op : Cell) (n : Nat) (r : Except Raised Effect) (s : State) :
    (finishStep op n r s).config = s.config := by
  unfold finishStep; split
  · rfl
  · split <;> rfl
@[simp] theorem finishStep_circuit (op : Cell) (n : Nat) (r : Except Raised Effect) (s : State) :
    (finishStep op n r s).circuit = s.circuit := by
  unfold finishStep; split
  · rfl
  · split <;> rfl
@[simp] theorem finishStep_controller (op : Cell) (n : Nat) (r : Except Raised Effect) (s : State) :
    (finishStep op n r s).controller = s.controller := by
  unfold finishStep; split
  · rfl
  · split <;> rfl
@[simp] theorem finishStep_engineResult (op : Cell) (n : Nat) (r : Except Raised Effect) (s : State) :
    (finishStep op n r s).engineResult = s.engineResult := by
  unfold finishStep; split
  · rfl
  · split <;> rfl
@[simp] theorem finishStep_inputs (op : Cell) (n : Nat) (r : Except Raised Effect) (s : State) :
    (finishStep op n r s).inputs = s.inputs := by
  unfold finishStep; split
  · rfl
  · split <;> rfl

/-- An error step is the statements' error state. -/
theorem errorStep_eq_intoError (c : ErrorCode) (a : Nat) (op : Cell) (s : State) :
    errorStep ⟨c, a⟩ op s = intoError c a op s :=
  rfl

/-- Everything the end of an instruction can do: an error step for a raised exception or for a new PC at or beyond `MEM_SIZE`,
else a commit. -/
theorem finishStep_cases (op : Cell) (n : Nat) (r : Except Raised Effect) (s : State) :
    (∃ x, r = .error x ∧ finishStep op n r s = errorStep x op s) ∨
    (∃ e, r = .ok e ∧ s.config.memSize ≤ e.newPC ∧
      finishStep op n r s = errorStep ⟨.addressOutOfRange, e.newPC⟩ op s) ∨
    (∃ e, r = .ok e ∧ e.newPC < s.config.memSize ∧
      finishStep op n r s = { s with core := s.core.commit op n e, cyclesConsumed := n }) := by
  cases r with
  | error x => exact .inl ⟨x, rfl, rfl⟩
  | ok e =>
    by_cases h : e.newPC < s.config.memSize
    · exact .inr (.inr ⟨e, rfl, h, by simp [finishStep, h]⟩)
    · exact .inr (.inl ⟨e, rfl, Nat.le_of_not_lt h, by simp [finishStep, h]⟩)

/-- Everything a program load can do. -/
theorem loadProgram_cases (words : List Cell) (a : Addr) (s : State) :
    (a.toNat + words.length ≤ s.config.memSize ∧
      loadProgram words a s = { s with core := { s.core with mem := s.core.mem.writeCells a.toNat words } }) ∨
    (s.config.memSize < a.toNat + words.length ∧
      loadProgram words a s =
        { s with core := s.core.raise ⟨.addressOutOfRange, max a.toNat s.config.memSize⟩ 0 }) := by
  by_cases h : a.toNat + words.length ≤ s.config.memSize
  · exact .inl ⟨h, by simp [loadProgram, h]⟩
  · exact .inr ⟨Nat.lt_of_not_le h, by simp [loadProgram, h]⟩

/-! A command taken from its channel (`45_controller.md` R161). -/

@[simp] theorem taken_config (cs : List Command) (ins : List Input) (s : State) : (taken cs ins s).config = s.config := rfl
@[simp] theorem taken_core (cs : List Command) (ins : List Input) (s : State) : (taken cs ins s).core = s.core := rfl
@[simp] theorem taken_circuit (cs : List Command) (ins : List Input) (s : State) : (taken cs ins s).circuit = s.circuit := rfl
@[simp] theorem taken_running (cs : List Command) (ins : List Input) (s : State) :
    (taken cs ins s).controller.running = s.controller.running := rfl
@[simp] theorem taken_speed (cs : List Command) (ins : List Input) (s : State) :
    (taken cs ins s).controller.speed = s.controller.speed := rfl
@[simp] theorem taken_breakpoints (cs : List Command) (ins : List Input) (s : State) :
    (taken cs ins s).controller.breakpoints = s.controller.breakpoints := rfl
@[simp] theorem taken_commands (cs : List Command) (ins : List Input) (s : State) :
    (taken cs ins s).controller.commands = cs := rfl
@[simp] theorem taken_events (cs : List Command) (ins : List Input) (s : State) :
    (taken cs ins s).controller.events = s.controller.events := rfl
@[simp] theorem taken_cyclesConsumed (cs : List Command) (ins : List Input) (s : State) :
    (taken cs ins s).cyclesConsumed = s.cyclesConsumed := rfl
@[simp] theorem taken_engineResult (cs : List Command) (ins : List Input) (s : State) :
    (taken cs ins s).engineResult = s.engineResult := rfl
@[simp] theorem taken_inputs (cs : List Command) (ins : List Input) (s : State) : (taken cs ins s).inputs = ins := rfl

end Sys2Proof.Machine
end

