-- ==== Sys2Proof/Laws/Engine.lean ====
section
/-!
SUPPORT. The Gate Evaluation Engine: reading a bit after writing one, what a pass that changes nothing says, and what the passes
of a `settle` keep.
-/

namespace Sys2Proof.Machine

open Sys2Proof.Safety

/-! Ports. -/

/-- Writing one bit leaves every other bit as it was (`44_gate_engine.md` R139). -/
theorem readPort_writePort_ne (wires : List Wire) {p q : Port} (v : Tri) (h : q ≠ p) :
    readPort (writePort wires p v) q = readPort wires q := by
  unfold readPort writePort
  rw [List.getElem?_modify]
  by_cases hw : p.wireId = q.wireId
  · have hb : p.bitIndex ≠ q.bitIndex := by
      intro hb; apply h; cases p; cases q; simp_all
    cases hq : wires[q.wireId]? with
    | none => simp
    | some w => simp [hw, List.getElem?_set_ne hb]
  · cases hq : wires[q.wireId]? with
    | none => simp
    | some w => simp [hw]

/-- A bit that exists reads as written (`44_gate_engine.md` R139). -/
theorem readPort_writePort_self {wires : List Wire} {p : Port} (v : Tri)
    (h : ∃ w, wires[p.wireId]? = some w ∧ p.bitIndex < w.bits.length) :
    readPort (writePort wires p v) p = v := by
  obtain ⟨w, hw, hb⟩ := h
  unfold readPort writePort
  rw [List.getElem?_modify]
  simp [hw, hb]

/-- Writing a bit does not change how many wires there are, nor any wire's record but its bits, nor how many bits it has. -/
theorem getElem?_writePort (wires : List Wire) (p : Port) (v : Tri) (k : Nat) :
    (writePort wires p v)[k]? = wires[k]? ∨
    ∃ w, wires[k]? = some w ∧ (writePort wires p v)[k]? = some { w with bits := w.bits.set p.bitIndex v } := by
  unfold writePort
  rw [List.getElem?_modify]
  by_cases h : p.wireId = k
  · cases hk : wires[k]? with
    | none => left; simp
    | some w => right; exact ⟨w, rfl, by simp [h]⟩
  · left
    cases hk : wires[k]? <;> simp [h]

/-! Passes. -/

/-- A driven port is written only where it differs (`44_gate_engine.md` R139). -/
theorem drivePort_cases (v : Tri) (acc : List Wire × Bool) (p : Port) :
    (readPort acc.1 p = v ∧ drivePort v acc p = acc) ∨
    (readPort acc.1 p ≠ v ∧ drivePort v acc p = (writePort acc.1 p v, true)) := by
  by_cases h : readPort acc.1 p = v
  · exact .inl ⟨h, by simp [drivePort, h]⟩
  · exact .inr ⟨h, by simp [drivePort, h]⟩

/-- A change once noted stays noted. -/
theorem drivePorts_true (v : Tri) : ∀ (ps : List Port) (acc : List Wire × Bool), acc.2 = true →
    (ps.foldl (drivePort v) acc).2 = true
  | [], _, h => h
  | p :: ps, acc, h => by
    rw [List.foldl_cons]
    apply drivePorts_true
    rcases drivePort_cases v acc p with ⟨_, e⟩ | ⟨_, e⟩ <;> rw [e]
    exact h

theorem driveGates_true : ∀ (gs : List Gate) (acc : List Wire × Bool), acc.2 = true → (gs.foldl driveGate acc).2 = true
  | [], _, h => h
  | g :: gs, acc, h => by
    rw [List.foldl_cons]
    exact driveGates_true gs _ (drivePorts_true _ g.outputs acc h)

/-- Ports driven without a change all held the value, and nothing was written. -/
theorem drivePorts_false {v : Tri} : ∀ {ps : List Port} {acc : List Wire × Bool}, (ps.foldl (drivePort v) acc).2 = false →
    ps.foldl (drivePort v) acc = acc ∧ ∀ p ∈ ps, readPort acc.1 p = v
  | [], acc, _ => ⟨rfl, by simp⟩
  | p :: ps, acc, h => by
    rw [List.foldl_cons] at h ⊢
    rcases drivePort_cases v acc p with ⟨hp, e⟩ | ⟨_, e⟩
    · rw [e] at h ⊢
      have := drivePorts_false h
      exact ⟨this.1, fun q hq => (List.mem_cons.mp hq).elim (fun e => e ▸ hp) (this.2 q)⟩
    · rw [e, drivePorts_true v ps _ rfl] at h
      cases h

theorem driveGates_false : ∀ {gs : List Gate} {acc : List Wire × Bool}, (gs.foldl driveGate acc).2 = false →
    gs.foldl driveGate acc = acc ∧ ∀ g ∈ gs, ∀ p ∈ g.outputs, readPort acc.1 p = g.value acc.1
  | [], acc, _ => ⟨rfl, by simp⟩
  | g :: gs, acc, h => by
    rw [List.foldl_cons] at h ⊢
    by_cases hc : (driveGate acc g).2 = true
    · rw [driveGates_true gs _ hc] at h
      cases h
    · have hg := drivePorts_false (v := g.value acc.1) (ps := g.outputs) (acc := acc) (by simpa [driveGate] using hc)
      have he : driveGate acc g = acc := hg.1
      rw [he] at h ⊢
      have := driveGates_false h
      exact ⟨this.1, fun f hf => (List.mem_cons.mp hf).elim (fun e => e ▸ hg.2) (this.2 f)⟩

/-- "A pass produces no further output change" exactly when every output bit equals its gate's value, and then it leaves the
wires as they are (`44_gate_engine.md` R139). -/
theorem pass_unchanged {order : List Gate} {wires : List Wire} (h : (pass order wires).2 = false) :
    (pass order wires).1 = wires ∧ ∀ g ∈ order, ∀ p ∈ g.outputs, readPort wires p = g.value wires := by
  have := driveGates_false h
  exact ⟨by unfold pass; rw [this.1], this.2⟩

/-- Ports that hold the value are not written. -/
theorem drivePorts_of_eq {v : Tri} : ∀ {ps : List Port} {acc : List Wire × Bool}, (∀ p ∈ ps, readPort acc.1 p = v) →
    ps.foldl (drivePort v) acc = acc
  | [], _, _ => rfl
  | p :: ps, acc, h => by
    rw [List.foldl_cons]
    have : drivePort v acc p = acc := by simp [drivePort, h p (by simp)]
    rw [this]
    exact drivePorts_of_eq fun q hq => h q (List.mem_cons_of_mem p hq)

/-- Where every output bit equals its gate's value a pass changes nothing. -/
theorem pass_of_consistent {order : List Gate} {wires : List Wire}
    (h : ∀ g ∈ order, ∀ p ∈ g.outputs, readPort wires p = g.value wires) : pass order wires = (wires, false) := by
  unfold pass
  induction order with
  | nil => rfl
  | cons g gs ih =>
    have hg : driveGate (wires, false) g = (wires, false) := drivePorts_of_eq (h g (by simp))
    rw [List.foldl_cons, hg]
    exact ih fun f hf => h f (List.mem_cons_of_mem g hf)

/-- What every write of a bit keeps, every drive of ports keeps. -/
theorem drivePorts_keeps {P : List Wire → Prop} {v : Tri} : ∀ {ps : List Port} {acc : List Wire × Bool},
    (∀ w, ∀ p ∈ ps, P w → P (writePort w p v)) → P acc.1 → P (ps.foldl (drivePort v) acc).1
  | [], _, _, h => h
  | p :: ps, acc, hP, h => by
    rw [List.foldl_cons]
    apply drivePorts_keeps (fun w q hq => hP w q (List.mem_cons_of_mem p hq))
    rcases drivePort_cases v acc p with ⟨_, e⟩ | ⟨_, e⟩ <;> rw [e]
    · exact h
    · exact hP _ _ (by simp) h

/-- What every write of a gate's output bit keeps, every turn of gates keeps. -/
theorem driveGates_keeps {P : List Wire → Prop} : ∀ {gs : List Gate} {acc : List Wire × Bool},
    (∀ w, ∀ g ∈ gs, ∀ p ∈ g.outputs, ∀ v, P w → P (writePort w p v)) → P acc.1 → P (gs.foldl driveGate acc).1
  | [], _, _, h => h
  | g :: gs, acc, hP, h => by
    rw [List.foldl_cons]
    apply driveGates_keeps (fun w f hf => hP w f (List.mem_cons_of_mem g hf))
    exact drivePorts_keeps (fun w p hp hw => hP w g (by simp) p hp _ hw) h

/-- What every write of a gate's output bit keeps, the passes of a `settle` keep. -/
theorem runPasses_keeps {P : List Wire → Prop} {order : List Gate}
    (hP : ∀ w, ∀ g ∈ order, ∀ p ∈ g.outputs, ∀ v, P w → P (writePort w p v)) :
    ∀ {left n : Nat} {w : List Wire}, P w → P (runPasses order left n w).wires
  | 0, _, _, h => h
  | left + 1, n, w, h => by
    simp only [runPasses]
    have hp : P (pass order w).1 := driveGates_keeps (acc := (w, false)) hP h
    split_ifs
    · exact runPasses_keeps hP hp
    · exact hp

/-- The gates of an evaluation order are gates of the circuit (`44_gate_engine.md` R138). -/
theorem orderGates_subset : ∀ {fuel : Nat} {gs : List Gate} {g : Gate}, g ∈ orderGates fuel gs → g ∈ gs
  | 0, _, _, h => by simp [orderGates] at h
  | fuel + 1, gs, g, h => by
    simp only [orderGates] at h
    split at h
    · cases h
    · rename_i f hf
      rcases List.mem_cons.mp h with rfl | h
      · unfold pickGate at hf
        split at hf
        · cases hf; exact List.mem_of_find?_eq_some (by assumption)
        · exact List.mem_of_mem_head? hf
      · exact List.mem_of_mem_eraseP (orderGates_subset h)

theorem evalOrder_subset {gates : List Gate} {g : Gate} (h : g ∈ evalOrder gates) : g ∈ combinational gates :=
  orderGates_subset h

/-- What every write of an output bit keeps, `settle` keeps. -/
theorem settlePasses_keeps {P : List Wire → Prop} {cap : Nat} {c : Circuit}
    (hP : ∀ w, ∀ g ∈ c.gates, ∀ p ∈ g.outputs, ∀ v, P w → P (writePort w p v)) (h : P c.wires) :
    P (settlePasses cap c).wires := by
  unfold settlePasses
  apply runPasses_keeps
  · intro w g hg
    exact hP w g (List.mem_of_mem_filter (evalOrder_subset hg))
  · exact driveGates_keeps (acc := (c.wires, false)) (fun w g hg => hP w g (List.mem_of_mem_filter hg)) h

/-- When passes converge, the last one changed nothing. -/
theorem runPasses_converged {order : List Gate} : ∀ {left n : Nat} {w : List Wire},
    (runPasses order left n w).converged = true → (pass order (runPasses order left n w).wires).2 = false
  | 0, _, _, h => by simp [runPasses] at h
  | left + 1, n, w, h => by
    simp only [runPasses] at h ⊢
    split_ifs at h ⊢ with hc
    · exact runPasses_converged h
    · have hf : (pass order w).2 = false := by simpa using hc
      rw [(pass_unchanged hf).1]; exact hf

/-! The cases of the operations. -/

/-- Everything `settle` can do with a circuit. -/
theorem settle_some (cap : Nat) (c : Circuit) :
    (settle cap (some c)).1 =
      some { c with wires := (settlePasses cap c).wires, stable := (settlePasses cap c).converged } :=
  rfl

end Sys2Proof.Machine
end

