-- ==== Sys2Proof/Laws/Circuit.lean ====
section
/-!
SUPPORT. Circuits: which bits exist, what keeps a circuit well-formed, the evaluation order, and what a pass writes.
-/

namespace Sys2Proof.Machine

open Sys2Proof.Safety

/-! The shape of wires: everything but the bits. -/

/-- The same wires, with bits of the same length. -/
def SameShape (w w' : List Wire) : Prop := w'.length = w.length ∧ ∀ (k : Nat) (a : Wire), w[k]? = some a → ∃ b,
    w'[k]? = some { a with bits := b } ∧ b.length = a.bits.length

/-- Wires have their own shape. -/
theorem SameShape.refl (w : List Wire) : SameShape w w := ⟨rfl, fun _ a h => ⟨a.bits, by simpa using h, rfl⟩⟩

/-- Shapes compare transitively. -/
theorem SameShape.trans {a b c : List Wire} (h : SameShape a b) (h' : SameShape b c) : SameShape a c := by
  refine ⟨h'.1.trans h.1, ?_⟩
  intro k x hx
  obtain ⟨y, hy, hl⟩ := h.2 k x hx
  obtain ⟨z, hz, hl'⟩ := h'.2 k _ hy
  exact ⟨z, hz, hl'.trans hl⟩

/-- Writing a bit keeps the shape. -/
theorem sameShape_writePort (w : List Wire) (p : Port) (v : Tri) : SameShape w (writePort w p v) := by
  refine ⟨by simp [writePort], ?_⟩
  intro k a ha
  rcases getElem?_writePort w p v k with h | ⟨x, hx, h⟩
  · exact ⟨a.bits, by rw [h]; exact ha, rfl⟩
  · rw [ha] at hx; cases hx; exact ⟨_, h, by simp⟩

/-- The port names a bit that is there. -/
def HasBit (p : Port) (w : List Wire) : Prop := ∃ x, w[p.wireId]? = some x ∧ p.bitIndex < x.bits.length

/-- Writing a bit takes no bit away. -/
theorem hasBit_writePort {p q : Port} {w : List Wire} {v : Tri} (h : HasBit p w) : HasBit p (writePort w q v) := by
  obtain ⟨x, hx, hb⟩ := h
  rcases getElem?_writePort w q v p.wireId with e | ⟨y, hy, e⟩
  · exact ⟨x, by rw [e]; exact hx, hb⟩
  · rw [hx] at hy; cases hy; exact ⟨_, e, by simpa using hb⟩

/-- Wires of one shape have the same bits. -/
theorem hasBit_of_sameShape {w w' : List Wire} (hs : SameShape w w') {p : Port} (h : HasBit p w) : HasBit p w' := by
  obtain ⟨x, hx, hb⟩ := h
  obtain ⟨b, hb', hl⟩ := hs.2 _ _ hx
  exact ⟨_, hb', by simpa [hl] using hb⟩

/-- Wires of one shape with equal bits are equal. -/
theorem SameShape.ext {w w' : List Wire} (hs : SameShape w w') (h : ∀ p, HasBit p w →
    readPort w' p = readPort w p) : w' = w := by
  apply List.ext_getElem?
  intro k
  cases hk : w[k]? with
  | none => rw [List.getElem?_eq_none_iff] at hk ⊢; rw [hs.1]; exact hk
  | some a =>
    obtain ⟨b, hb, hl⟩ := hs.2 k a hk
    rw [hb]
    have : b = a.bits := by
      apply List.ext_getElem hl
      intro i h1 h2
      have := h ⟨k, i⟩ ⟨a, hk, h2⟩
      simp [readPort, hb, hk, h1, h2] at this
      exact this
    rw [this]

/-- An output port of a gate of a well-formed circuit names a bit (`10_state.md` R26). -/
theorem hasBit_of_wellFormed {c : Circuit} (h : c.wellFormed = true) {g : Gate} (hg : g ∈ c.gates) {p : Port} (hp :
    p ∈ g.outputs) : HasBit p c.wires := by
  simp only [Circuit.wellFormed, Bool.and_eq_true, List.all_eq_true] at h
  have h4 := h.2 g hg
  simp only [Gate.wellFormed, Bool.and_eq_true, List.all_eq_true] at h4
  have := h4.2 p hp
  unfold portExists at this
  split at this
  · rename_i w hw
    have hwf := h.1.2 w (List.mem_of_getElem? hw)
    simp [Wire.wellFormed] at hwf
    refine ⟨w, hw, ?_⟩
    simp at this; omega
  · cases this

/-! Well-formed circuits. -/

/-- Ids that count from `n` (`10_state.md` R26). -/
theorem idsFrom_iff : ∀ (n : Nat) (l : List Nat), idsFrom n l = true ↔ ∀ k x, l[k]? = some x → x = n + k
  | n, [] => by simp [idsFrom]
  | n, a :: l => by
    simp only [idsFrom, Bool.and_eq_true, beq_iff_eq, idsFrom_iff (n+1) l]
    constructor
    · rintro ⟨rfl, h⟩ k x hk
      cases k with
      | zero => simp at hk; omega
      | succ k => have := h k x (by simpa using hk); omega
    · intro h
      exact ⟨by have := h 0 a (by simp); omega, fun k x hk => by have := h (k+1) x (by simpa using hk); omega⟩

/-- New bits of the old lengths keep a circuit well-formed (`10_state.md` R26). -/
theorem wellFormed_of_sameShape {c : Circuit} {w' : List Wire} (h : c.wellFormed = true) (hs : SameShape c.wires w')
    (b : Bool) : Circuit.wellFormed { c with wires := w', stable := b } = true := by
  simp only [Circuit.wellFormed, Bool.and_eq_true, List.all_eq_true] at h ⊢
  obtain ⟨⟨⟨h1, h2⟩, h3⟩, h4⟩ := h
  have back : ∀ (k : Nat) (x : Wire), w'[k]? = some x → ∃ a b, c.wires[k]? = some a ∧ x = { a with bits := b } ∧
      b.length = a.bits.length := by
    intro k x hx
    have hk : k < w'.length := by by_contra hk; rw [List.getElem?_eq_none (by omega)] at hx; cases hx
    rw [hs.1] at hk
    obtain ⟨b, hb, hl⟩ := hs.2 k _ (List.getElem?_eq_getElem hk)
    rw [hx] at hb; cases hb
    exact ⟨_, b, List.getElem?_eq_getElem hk, rfl, hl⟩
  have pe : ∀ p, portExists c.wires p = true → portExists w' p = true := by
    intro p hp
    unfold portExists at hp ⊢
    split at hp
    · rename_i a ha
      obtain ⟨b, hb, _⟩ := hs.2 _ _ ha
      rw [hb]; exact hp
    · cases hp
  refine ⟨⟨⟨?_, h2⟩, ?_⟩, ?_⟩
  · rw [idsFrom_iff] at h1 ⊢
    intro k x hx
    rw [List.getElem?_map, Option.map_eq_some_iff] at hx
    obtain ⟨y, hy, rfl⟩ := hx
    obtain ⟨a, b, ha, rfl, _⟩ := back k y hy
    exact h1 k a.id (by rw [List.getElem?_map, ha]; rfl)
  · intro x hx
    obtain ⟨k, hk⟩ := List.mem_iff_getElem?.mp hx
    obtain ⟨a, b, ha, rfl, hl⟩ := back k x hk
    have := h3 a (List.mem_of_getElem? ha)
    simp only [Wire.wellFormed, hl] at this ⊢; exact this
  · intro g hg
    have := h4 g hg
    simp only [Gate.wellFormed, Bool.and_eq_true, List.all_eq_true] at this ⊢
    exact ⟨⟨this.1.1, fun p hp => pe p (this.1.2 p hp)⟩, fun p hp => pe p (this.2 p hp)⟩

/-- A clock edge keeps a circuit well-formed (`10_state.md` R26). -/
theorem wellFormed_of_clocked {c : Circuit} (h : c.wellFormed = true) (n : Counter) (b : Bool) :
   Circuit.wellFormed { c with gates := c.gates.map (Gate.clocked c.wires), cycle := n, stable := b } = true := by
  simp only [Circuit.wellFormed, Bool.and_eq_true, List.all_eq_true] at h ⊢
  obtain ⟨⟨⟨h1, h2⟩, h3⟩, h4⟩ := h
  refine ⟨⟨⟨h1, ?_⟩, h3⟩, ?_⟩
  · rw [List.map_map]
    have : (Gate.id ∘ Gate.clocked c.wires) = Gate.id := by
      funext g; simp only [Function.comp, Gate.clocked]; split_ifs <;> rfl
    rw [this]; exact h2
  · intro g hg
    obtain ⟨f, hf, rfl⟩ := List.mem_map.mp hg
    have := h4 f hf
    unfold Gate.clocked; split_ifs with hd
    · simp only [Gate.wellFormed, Bool.and_eq_true] at this ⊢
      refine ⟨⟨⟨this.1.1.1, ?_⟩, this.1.2⟩, this.2⟩
      simp [Gate.storedOk, Gate.isDff] at hd ⊢; exact hd
    · exact this

/-! The evaluation order (`44_gate_engine.md` R138). -/

/-- The ids of a well-formed circuit differ. -/
theorem ids_nodup {c : Circuit} (h : c.wellFormed = true) : (c.gates.map Gate.id).Nodup := by
  simp only [Circuit.wellFormed, Bool.and_eq_true] at h
  have := (idsFrom_iff _ _).mp h.1.1.2
  rw [List.nodup_iff_getElem?_ne_getElem?]
  intro i j hij hj e
  have h1 := this j _ (List.getElem?_eq_getElem hj)
  rw [List.getElem?_eq_getElem hj] at e
  have h2 := this i _ e
  omega

/-- So do those of its combinational gates. -/
theorem combinational_ids_nodup {c : Circuit} (h : c.wellFormed = true) :
    ((combinational c.gates).map Gate.id).Nodup :=
  (ids_nodup h).sublist (List.filter_sublist.map _)

/-- Among remaining gates one is placed next. -/
theorem pickGate_of_ne_nil {l : List Gate} (h : l ≠ []) : ∃ g, pickGate l = some g ∧ g ∈ l := by
  unfold pickGate
  split
  · exact ⟨_, rfl, List.mem_of_find?_eq_some (by assumption)⟩
  · cases l with
    | nil => exact absurd rfl h
    | cons a l => exact ⟨a, rfl, by simp⟩

/-- Taking one gate out by its id. -/
theorem perm_cons_eraseP_id {l : List Gate} {g : Gate} (hg : g ∈ l) (hn : (l.map Gate.id).Nodup) :
   l.Perm (g :: l.eraseP (fun h => h.id == g.id)) := by
  induction l with
  | nil => cases hg
  | cons a l ih =>
    rw [List.map_cons, List.nodup_cons] at hn
    rcases List.mem_cons.mp hg with rfl | hg
    · simp
    · have : a.id ≠ g.id := fun e => hn.1 (e ▸ List.mem_map_of_mem hg)
      rw [List.eraseP_cons_of_neg (by simpa using this)]
      exact ((ih hg hn.2).cons a).trans (List.Perm.swap _ _ _)

/-- The order has every gate once. -/
theorem orderGates_perm : ∀ {n : Nat} {l : List Gate}, l.length = n → (l.map Gate.id).Nodup → (orderGates n l).Perm l
  | 0, l, hl, _ => by rw [List.length_eq_zero_iff] at hl; subst hl; exact List.Perm.refl _
  | n+1, l, hl, hn => by
    obtain ⟨g, hp, hg⟩ := pickGate_of_ne_nil (l := l) (by rintro rfl; simp at hl)
    have hpm := perm_cons_eraseP_id hg hn
    simp only [orderGates, hp]
    have h1 : (l.eraseP (fun h => h.id == g.id)).length = n := by have := hpm.length_eq; simp at this; omega
    have h2 := (hpm.map Gate.id).nodup_iff.mp hn
    exact ((orderGates_perm h1 (List.nodup_cons.mp h2).2).cons g).trans hpm.symm

/-- The order of a well-formed circuit holds exactly its combinational gates. -/
theorem mem_evalOrder {c : Circuit} (h : c.wellFormed = true) (g : Gate) : g ∈ evalOrder c.gates ↔
    g ∈ combinational c.gates :=
  (orderGates_perm rfl (combinational_ids_nodup h)).mem_iff

/-- Without a cycle the order is topological: no gate feeds one placed before it. -/
theorem orderGates_topological {rank : Gate → Nat} : ∀ {n : Nat} {l : List Gate}, l.length = n →
    (l.map Gate.id).Nodup →
   (∀ h ∈ l, ∀ g ∈ l, feeds h g = true → rank h < rank g) → (orderGates n l).Pairwise (fun g h => feeds h g = false)
  | 0, l, hl, _, _ => by simp [orderGates]
  | n+1, l, hl, hn, hr => by
    obtain ⟨g, hp, hg⟩ := pickGate_of_ne_nil (l := l) (by rintro rfl; simp at hl)
    have hpm := perm_cons_eraseP_id hg hn
    have h1 : (l.eraseP (fun h => h.id == g.id)).length = n := by have := hpm.length_eq; simp at this; omega
    have h2 := (hpm.map Gate.id).nodup_iff.mp hn
    have hready : ∀ h ∈ l, feeds h g = false := by
      unfold pickGate at hp
      split at hp
      · rename_i f hf
        cases hp
        have := List.find?_some hf
        simpa using this
      · rename_i hf
        exfalso
        have hne : ∀ x ∈ l, ∃ h ∈ l, feeds h x = true := by
          intro x hx
          have := List.find?_eq_none.mp hf x hx
          simpa using this
        -- minimal rank
        obtain ⟨m, hm, hmin⟩ := Set.exists_min_image {x | x ∈ l} rank (List.finite_toSet l) ⟨g, hg⟩
        obtain ⟨h, hh, hf'⟩ := hne m hm
        have := hr h hh m hm hf'
        have := hmin h hh
        omega
    simp only [orderGates, hp]
    refine List.pairwise_cons.mpr ⟨?_, ?_⟩
    · intro h hh
      exact hready h (List.mem_of_mem_eraseP (orderGates_subset hh))
    · exact orderGates_topological h1 (List.nodup_cons.mp h2).2 (fun h hh g hg => hr h (List.mem_of_mem_eraseP hh) g
          (List.mem_of_mem_eraseP hg))

/-- A change of the gates that keeps ids and ports keeps the choice. -/
theorem pickGate_map {l : List Gate} {f : Gate → Gate} (hf : ∀ g, (f g).inputs = g.inputs ∧
    (f g).outputs = g.outputs ∧ (f g).id = g.id) :
    pickGate (l.map f) = (pickGate l).map f := by
  unfold pickGate
  rw [List.find?_map]
  have : ((fun g => (l.map f).all fun h => !feeds h g) ∘ f) = fun g => l.all fun h => !feeds h g := by
    funext g; simp only [Function.comp, List.all_map, feeds, hf]; congr 1; funext h; simp [Function.comp, hf]
  rw [this]
  cases l.find? _ <;> simp

/-- A change of the gates that keeps ids and ports keeps the order. -/
theorem orderGates_map {f : Gate → Gate} (hf : ∀ g, (f g).inputs = g.inputs ∧ (f g).outputs = g.outputs ∧
    (f g).id = g.id) :
   ∀ (n : Nat) (l : List Gate), orderGates n (l.map f) = (orderGates n l).map f
  | 0, _ => rfl
  | n+1, l => by
    simp only [orderGates, pickGate_map hf]
    cases pickGate l with
    | none => rfl
    | some g =>
      simp only [Option.map_some, List.map_cons]
      rw [List.eraseP_map]
      have : ((fun h : Gate => h.id == (f g).id) ∘ f) = fun h => h.id == g.id := by funext h; simp [hf]
      rw [this, orderGates_map hf n]

/-- The ids of the combinational gates of a well-formed circuit rise. -/
theorem combinational_ids_rising {c : Circuit} (h : c.wellFormed = true) :
    ((combinational c.gates).map Gate.id).Pairwise (· < ·) := by
  simp only [Circuit.wellFormed, Bool.and_eq_true] at h
  have := (idsFrom_iff _ _).mp h.1.1.2
  refine List.Pairwise.sublist (List.filter_sublist.map _) ?_
  rw [List.pairwise_iff_getElem]
  intro i j hi hj hij
  have a := this i _ (List.getElem?_eq_getElem hi)
  have b := this j _ (List.getElem?_eq_getElem hj)
  omega

/-- The gate placed next: the smallest id among the gates that wait for none, else the smallest id. -/
theorem pickGate_spec {l : List Gate} (hs : (l.map Gate.id).Pairwise (· < ·)) {g : Gate} (h : pickGate l = some g) :
   ((∃ f ∈ l, Ready l f) → Ready l g ∧ ∀ f ∈ l, Ready l f → g.id ≤ f.id) ∧ ((∀ f ∈ l, ¬ Ready l f) → ∀ f ∈ l,
       g.id ≤ f.id) := by
  have rd : ∀ f, (l.all fun h => !feeds h f) = true ↔ Ready l f := by intro f; simp [Ready]
  have hs' := List.pairwise_map.mp hs
  unfold pickGate at h
  split at h
  · rename_i x hx
    obtain rfl : x = g := Option.some.inj h
    have hg := (rd x).mp (by simpa using List.find?_some hx)
    refine ⟨fun _ => ⟨hg, ?_⟩, fun hn => absurd hg (hn x (List.mem_of_find?_eq_some hx))⟩
    intro f hf hrf
    obtain ⟨_, as, bs, hl, has⟩ := List.find?_eq_some_iff_append.mp hx
    rw [hl] at hf hs'
    rcases List.mem_append.mp hf with hf | hf
    · have := has f hf; rw [(rd f).mpr hrf] at this; simp at this
    · rcases List.mem_cons.mp hf with rfl | hf
      · exact le_refl _
      · exact le_of_lt ((List.pairwise_cons.mp (List.pairwise_append.mp hs').2.1).1 f hf)
  · rename_i hx
    refine ⟨?_, ?_⟩
    · rintro ⟨f, hf, hr⟩; exact absurd ((rd f).mpr hr) (List.find?_eq_none.mp hx f hf)
    · intro _ f hf
      cases l with
      | nil => cases h
      | cons a l =>
        simp at h; subst h
        rcases List.mem_cons.mp hf with rfl | hf
        · exact le_refl _
        · exact le_of_lt ((List.pairwise_cons.mp hs').1 f hf)

/-! Gates and passes (`44_gate_engine.md` R135, R139). -/

/-- A gate's value depends on the bits at its inputs. -/
theorem value_congr {w w' : List Wire} {g : Gate} (h : ∀ p ∈ g.inputs, readPort w p = readPort w' p) :
    g.value w = g.value w' := by
  have : g.inputs.map (readPort w) = g.inputs.map (readPort w') := List.map_congr_left h
  simp only [Gate.value, this]

/-- A DFF's value depends on no wire (`44_gate_engine.md` R136). -/
theorem dff_value_congr {g : Gate} (h : g.isDff = true) (w w' : List Wire) : g.value w = g.value w' := by
  simp [Gate.isDff] at h; simp [Gate.value, h]

/-- A gate that does not feed another drives none of its inputs. -/
theorem not_mem_inputs_of_not_feeds {h g : Gate} (hf : feeds h g = false) : ∀ p ∈ h.outputs, p ∉ g.inputs := by
  intro p hp hi
  simp [feeds] at hf
  exact hf p hp hi

/-- A commutative and associative fold does not see the order of its list (`44_gate_engine.md` R135). -/
theorem foldBits_perm (op : Tri → Tri → Tri) (hc : ∀ a b, op a b = op b a) (ha : ∀ a b c, op (op a b) c = op a
    (op b c))
   {l l' : List Tri} (h : l.Perm l') : foldBits op l = foldBits op l' := by
  have : RightCommutative op := ⟨fun a b c => by rw [ha, ha, hc b c]⟩
  induction h with
  | nil => rfl
  | cons b h ih => exact h.foldl_eq b
  | swap a b l => simp only [foldBits, List.foldl_cons]; rw [hc]
  | trans _ _ h1 h2 => exact h1.trans h2

/-- Driving output ports sets them and leaves every other bit. -/
theorem drivePorts_set {v : Tri} : ∀ {ps : List Port} {acc : List Wire × Bool}, (∀ p ∈ ps, HasBit p acc.1) →
    (∀ p ∈ ps, readPort (ps.foldl (drivePort v) acc).1 p = v) ∧ (∀ q, q ∉ ps → readPort (ps.foldl
        (drivePort v) acc).1 q = readPort acc.1 q)
     ∧ (∀ q, HasBit q acc.1 → HasBit q (ps.foldl (drivePort v) acc).1) 
  | [], acc, _ => by simp
  | p :: ps, acc, h => by
    have key : HasBit p acc.1 := h p (by simp)
    have hstep : readPort (drivePort v acc p).1 p = v ∧ (∀ q, q ≠ p → readPort
        (drivePort v acc p).1 q = readPort acc.1 q) ∧ (∀ q, HasBit q acc.1 → HasBit q (drivePort v acc p).1) := by
      rcases drivePort_cases v acc p with ⟨hp, e⟩ | ⟨_, e⟩ <;> rw [e]
      · exact ⟨hp, fun _ _ => rfl, fun _ h => h⟩
      · exact ⟨readPort_writePort_self v key, fun q hq => readPort_writePort_ne _ _ hq,
            fun q hq => hasBit_writePort hq⟩
    obtain ⟨a, b, c⟩ := drivePorts_set (v := v) (ps := ps) (acc := drivePort v acc p) (fun q hq => hstep.2.2 q (h q
        (by simp [hq])))
    rw [List.foldl_cons]
    refine ⟨?_, ?_, fun q hq => c q (hstep.2.2 q hq)⟩
    · intro q hq
      by_cases hqs : q ∈ ps
      · exact a q hqs
      · rcases List.mem_cons.mp hq with rfl | hq
        · rw [b _ hqs]; exact hstep.1
        · exact absurd hq hqs
    · intro q hq
      simp at hq
      rw [b q hq.2, hstep.2.1 q hq.1]

/-- Driving output ports leaves every other bit. -/
theorem drivePorts_out {v : Tri} : ∀ {ps : List Port} {acc : List Wire × Bool} {q : Port}, q ∉ ps → readPort
    (ps.foldl (drivePort v) acc).1 q = readPort acc.1 q := by
  intro ps acc q hq
  exact drivePorts_keeps (P := fun w => readPort w q = readPort acc.1 q)
      (fun w p hp hw => by rw [readPort_writePort_ne _ _ (fun e => hq (by rw [e]; exact hp))]; exact hw) rfl

/-- Gates leave every bit that is none of their outputs. -/
theorem driveGates_out {gs : List Gate} {acc : List Wire × Bool} {q : Port} (hq : ∀ g ∈ gs, q ∉ g.outputs) :
    readPort (gs.foldl driveGate acc).1 q = readPort acc.1 q :=
  driveGates_keeps (P := fun w => readPort w q = readPort acc.1 q)
    (fun w g hg p hp v hw => by
      rw [readPort_writePort_ne _ _ (fun e => hq g hg (by rw [e]; exact hp))]
      exact hw)
    rfl

/-- Driving output ports sets them. -/
theorem drivePorts_in {v : Tri} : ∀ {ps : List Port} {acc : List Wire × Bool} {q : Port}, HasBit q acc.1 → q ∈ ps →
    readPort (ps.foldl (drivePort v) acc).1 q = v
  | [], _, _, _, h => by cases h
  | p :: ps, acc, q, hh, h => by
    rw [List.foldl_cons]
    have hq : HasBit q (drivePort v acc p).1 := by
      rcases drivePort_cases v acc p with ⟨_, e⟩ | ⟨_, e⟩ <;> rw [e]
      · exact hh
      · exact hasBit_writePort hh
    by_cases hps : q ∈ ps
    · exact drivePorts_in hq hps
    · rcases List.mem_cons.mp h with rfl | h
      · rw [drivePorts_out hps]
        rcases drivePort_cases v acc q with ⟨hp, e⟩ | ⟨_, e⟩ <;> rw [e]
        · exact hp
        · exact readPort_writePort_self v hh
      · exact absurd h hps

/-- Passes that converge, counted (`44_gate_engine.md` R142). -/
theorem runPasses_of_converging (order : List Gate) : ∀ (m n k : Nat) (w : List Wire), n < m → (pass order
    (afterPasses order n w)).2 = false →
      (∀ k, k < n → (pass order (afterPasses order k w)).2 = true) →
      runPasses order m k w = ⟨k + n + 1, afterPasses order (n+1) w, true⟩
  | 0, n, k, w, h, _, _ => by omega
  | m+1, 0, k, w, h, h1, h2 => by
    simp [afterPasses] at h1
    simp [runPasses, h1, afterPasses]
  | m+1, n+1, k, w, h, h1, h2 => by
    have h0 := h2 0 (by omega)
    simp [afterPasses] at h0
    simp only [runPasses, h0, if_true]
    rw [runPasses_of_converging order m n (k+1) _ (by omega) (by simpa [afterPasses,
        Function.iterate_succ_apply] using h1) (fun j hj => by have := h2 (j+1) (by omega); simpa [afterPasses,
        Function.iterate_succ_apply] using this)]
    simp [afterPasses, Function.iterate_succ_apply]; omega

/-- Passes that all change something, counted (`44_gate_engine.md` R143). -/
theorem runPasses_of_changing (order : List Gate) : ∀ (m k : Nat) (w : List Wire), 
      (∀ k, k < m → (pass order (afterPasses order k w)).2 = true) →
      runPasses order m k w = ⟨k + m, afterPasses order m w, false⟩
  | 0, k, w, h => by simp [runPasses, afterPasses]
  | m+1, k, w, h => by
    have h0 := h 0 (by omega)
    simp [afterPasses] at h0
    simp only [runPasses, h0, if_true]
    rw [runPasses_of_changing order m (k+1) _ (fun j hj => by have := h (j+1) (by omega); simpa [afterPasses,
        Function.iterate_succ_apply] using this)]
    simp [afterPasses, Function.iterate_succ_apply]; omega

/-- A settle that answers Ok has converged (`44_gate_engine.md` R142). -/
theorem settle_eq_settled {cap c c'} (h : engineOp cap .settle (some c) = (some c', .settled c')) :
   (settlePasses cap c).converged = true ∧ c' = { c with wires := (settlePasses cap c).wires, stable := true } := by
  simp only [engineOp, settle] at h
  cases hc : (settlePasses cap c).converged
  · simp [hc] at h
  · simp [hc] at h; exact ⟨rfl, h.symm⟩

end Sys2Proof.Machine
end

