-- ==== Sys2Proof/Laws/Memory.lean ====
section
/-!
SUPPORT. Memory: reading after writing, and the canonical form that every memory operation keeps.
-/

namespace Sys2Proof.Machine

@[simp] theorem Memory.read_nil (a : Nat) : Memory.read [] a = 0 := rfl

/-- A cell below everything listed reads 0. -/
theorem Memory.read_below : ∀ {m : Memory} {lo a : Nat}, Memory.wfAbove lo m = true → a < lo → m.read a = 0
  | [], _, _, _, _ => rfl
  | (b, v) :: m, lo, a, h, ha => by
    simp only [Memory.wfAbove, Bool.and_eq_true, decide_eq_true_eq] at h
    have hne : a ≠ b := by omega
    simp only [Memory.read, hne, if_false]
    exact Memory.read_below h.2 (by omega)

theorem Memory.wfAbove_mono : ∀ {m : Memory} {lo lo' : Nat}, lo' ≤ lo → Memory.wfAbove lo m = true →
    Memory.wfAbove lo' m = true
  | [], _, _, _, _ => rfl
  | (b, v) :: m, lo, lo', hle, h => by
    simp only [Memory.wfAbove, Bool.and_eq_true, decide_eq_true_eq] at h ⊢
    exact ⟨⟨by omega, h.1.2⟩, h.2⟩

/-- A write leaves every other cell as it was (`20_memory.md` R42). -/
theorem Memory.read_write_ne : ∀ (m : Memory) {a b : Nat} (v : Cell), b ≠ a → (m.write a v).read b = m.read b
  | [], a, b, v, h => by
    simp only [Memory.write]
    split_ifs with hv <;> simp [Memory.read, h]
  | (c, w) :: m, a, b, v, h => by
    simp only [Memory.write]
    have ih := Memory.read_write_ne m v h
    split_ifs with h1 h2 h3 h4 <;> simp [Memory.read, h, ih]
    all_goals (intro hb; omega)

/-- In canonical memory the cell written holds the value (`20_memory.md` R42). -/
theorem Memory.read_write_self_above : ∀ {m : Memory} {lo a : Nat} (v : Cell), Memory.wfAbove lo m = true →
    (m.write a v).read a = v
  | [], lo, a, v, _ => by
    simp only [Memory.write]
    split_ifs with hv <;> simp [Memory.read, hv]
  | (c, w) :: m, lo, a, v, h => by
    simp only [Memory.wfAbove, Bool.and_eq_true, decide_eq_true_eq] at h
    simp only [Memory.write]
    split_ifs with h1 h2 h3 h4
    · have hne : a ≠ c := by omega
      simp only [Memory.read, hne, if_false, h2]
      exact Memory.read_below h.2 (by omega)
    · simp [Memory.read]
    · rw [h4]
      exact Memory.read_below h.2 (by omega)
    · simp [Memory.read]
    · simp only [Memory.read, h3, if_false]
      exact Memory.read_write_self_above v h.2

theorem Memory.read_write_self {m : Memory} (h : m.wf = true) (a : Nat) (v : Cell) : (m.write a v).read a = v :=
  Memory.read_write_self_above v h

theorem Memory.wfAbove_write : ∀ {m : Memory} {lo a : Nat} (v : Cell), Memory.wfAbove lo m = true → lo ≤ a →
    Memory.wfAbove lo (m.write a v) = true
  | [], lo, a, v, _, ha => by
    simp only [Memory.write]
    split_ifs with hv
    · rfl
    · simp only [Memory.wfAbove, Bool.and_true, Bool.and_eq_true, decide_eq_true_eq, bne_iff_ne, ne_eq]
      exact ⟨ha, hv⟩
  | (c, w) :: m, lo, a, v, h, ha => by
    have h' := h
    simp only [Memory.wfAbove, Bool.and_eq_true, decide_eq_true_eq, bne_iff_ne, ne_eq] at h
    simp only [Memory.write]
    split_ifs with h1 h2 h3 h4
    · exact h'
    · simp only [Memory.wfAbove, Bool.and_eq_true, decide_eq_true_eq, bne_iff_ne, ne_eq]
      exact ⟨⟨ha, h2⟩, ⟨by omega, h.1.2⟩, h.2⟩
    · exact Memory.wfAbove_mono (by omega) h.2
    · simp only [Memory.wfAbove, Bool.and_eq_true, decide_eq_true_eq, bne_iff_ne, ne_eq]
      exact ⟨⟨ha, h4⟩, by rw [h3]; exact h.2⟩
    · simp only [Memory.wfAbove, Bool.and_eq_true, decide_eq_true_eq, bne_iff_ne, ne_eq]
      exact ⟨h.1, Memory.wfAbove_write v h.2 (by omega)⟩

/-- A write keeps the canonical form. -/
theorem Memory.wf_write {m : Memory} (h : m.wf = true) (a : Nat) (v : Cell) : (m.write a v).wf = true :=
  Memory.wfAbove_write v h (Nat.zero_le a)

/-- A write below `n` keeps memory below `n`. -/
theorem Memory.below_write {n : Nat} : ∀ {m : Memory} {a : Nat} (v : Cell), m.below n = true → a < n →
    (m.write a v).below n = true
  | [], a, v, _, ha => by
    simp only [Memory.write]
    split_ifs with hv <;> simp [Memory.below, ha]
  | (c, w) :: m, a, v, h, ha => by
    have h' := h
    simp only [Memory.below, List.all_cons, Bool.and_eq_true, decide_eq_true_eq] at h
    simp only [Memory.write]
    split_ifs with h1 h2 h3 h4
    · exact h'
    · simp only [Memory.below, List.all_cons, Bool.and_eq_true, decide_eq_true_eq]
      exact ⟨ha, h⟩
    · exact h.2
    · simp only [Memory.below, List.all_cons, Bool.and_eq_true, decide_eq_true_eq]
      exact ⟨ha, h.2⟩
    · simp only [Memory.below, List.all_cons, Bool.and_eq_true, decide_eq_true_eq]
      exact ⟨h.1, Memory.below_write v h.2 ha⟩

theorem Memory.wf_writeCells : ∀ {m : Memory} (a : Nat) (vs : List Cell), m.wf = true → (m.writeCells a vs).wf = true
  | _, _, [], h => h
  | _, a, v :: vs, h => Memory.wf_writeCells (a + 1) vs (Memory.wf_write h a v)

theorem Memory.below_writeCells {n : Nat} : ∀ {m : Memory} (a : Nat) (vs : List Cell), m.below n = true →
    a + vs.length ≤ n → (m.writeCells a vs).below n = true
  | _, _, [], h, _ => h
  | _, a, v :: vs, h, hn => by
    simp only [List.length_cons] at hn
    exact Memory.below_writeCells (a + 1) vs (Memory.below_write v h (by omega)) (by omega)

/-- Writing cells from `a` on leaves every cell outside the range as it was (`20_memory.md` R54). -/
theorem Memory.read_writeCells_outside : ∀ (m : Memory) (a : Nat) (vs : List Cell) {b : Nat},
    b < a ∨ a + vs.length ≤ b → (m.writeCells a vs).read b = m.read b
  | _, _, [], _, _ => rfl
  | m, a, v :: vs, b, h => by
    simp only [List.length_cons] at h
    rw [Memory.writeCells, Memory.read_writeCells_outside _ _ _ (by omega), Memory.read_write_ne _ _ (by omega)]

/-- Writing cells from `a` on puts the `k`th cell at `a + k` (`20_memory.md` R54). -/
theorem Memory.read_writeCells_inside : ∀ {m : Memory} (a : Nat) (vs : List Cell) {k : Nat} {v : Cell}, m.wf = true →
    vs[k]? = some v → (m.writeCells a vs).read (a + k) = v
  | _, _, [], _, _, _, h => by simp at h
  | m, a, w :: vs, 0, v, hm, h => by
    simp only [List.getElem?_cons_zero, Option.some.injEq] at h
    rw [Memory.writeCells, Memory.read_writeCells_outside _ _ _ (by omega), Nat.add_zero,
      Memory.read_write_self hm, h]
  | m, a, w :: vs, k + 1, v, hm, h => by
    simp only [List.getElem?_cons_succ] at h
    have := Memory.read_writeCells_inside (a + 1) vs (Memory.wf_write hm a w) h
    rwa [show a + 1 + k = a + (k + 1) from by omega] at this

theorem Memory.wf_nil : Memory.wf [] = true := rfl

theorem Memory.below_nil (n : Nat) : Memory.below n [] = true := rfl

/-- The pending write of a step keeps the canonical form. -/
theorem Memory.wf_apply {m : Memory} (w : Option (Nat × Cell)) (h : m.wf = true) : (m.apply w).wf = true := by
  cases w with
  | none => exact h
  | some w => exact Memory.wf_write h w.1 w.2

end Sys2Proof.Machine
end

