-- ==== Sys2Proof/Laws/Core.lean ====
section
/-!
SUPPORT. The ISA Core: what operand fetch, an instruction and `step()` can do, each said once.
-/

namespace Sys2Proof.Machine

open Sys2Proof.Safety

/-! Decoding. -/

/-- The two halves of an address make the address (`30_encoding.md` R64). -/
theorem joinAddr_hiCell_loCell (a : Addr) : joinAddr (hiCell a) (loCell a) = a := by
  apply BitVec.eq_of_toNat_eq
  have := a.isLt
  simp only [joinAddr, hiCell, loCell, BitVec.toNat_append, BitVec.extractLsb'_toNat,
    Nat.shiftRight_eq_div_pow]
  rw [← Nat.shiftLeft_add_eq_or_of_lt (by omega), Nat.shiftLeft_eq]
  omega

/-- The high half of joined cells (`30_encoding.md` R64). -/
theorem hiCell_joinAddr (hi lo : Cell) : hiCell (joinAddr hi lo) = hi := by
  apply BitVec.eq_of_toNat_eq
  have := hi.isLt
  have := lo.isLt
  simp only [joinAddr, hiCell, BitVec.toNat_append, BitVec.extractLsb'_toNat, Nat.shiftRight_eq_div_pow]
  rw [← Nat.shiftLeft_add_eq_or_of_lt (by omega), Nat.shiftLeft_eq]
  omega

/-- The low half of joined cells (`30_encoding.md` R64). -/
theorem loCell_joinAddr (hi lo : Cell) : loCell (joinAddr hi lo) = lo := by
  apply BitVec.eq_of_toNat_eq
  have := hi.isLt
  have := lo.isLt
  simp only [joinAddr, loCell, BitVec.toNat_append, BitVec.extractLsb'_toNat, Nat.shiftRight_zero]
  rw [← Nat.shiftLeft_add_eq_or_of_lt (by omega), Nat.shiftLeft_eq]
  omega

/-! Operands (`40_step.md` R83). -/

@[simp] theorem operandCells_zero (s : State) : operandCells s 0 = .ok () := rfl

theorem operandCells_one (s : State) :
    operandCells s 1 =
      if s.core.pc.toNat + 1 < s.config.memSize then .ok () else .error ⟨.addressOutOfRange, s.core.pc.toNat + 1⟩ :=
  rfl

theorem operandCells_two (s : State) :
    operandCells s 2 =
      if s.core.pc.toNat + 1 < s.config.memSize then
        if s.core.pc.toNat + 2 < s.config.memSize then .ok () else .error ⟨.addressOutOfRange, s.core.pc.toNat + 2⟩
      else .error ⟨.addressOutOfRange, s.core.pc.toNat + 1⟩ :=
  rfl

/-- An operand fetch raises AddressOutOfRange or nothing. -/
theorem cellsExist_error {s : State} : ∀ {n a : Nat} {x : Raised}, cellsExist s n a = .error x →
    x.code = .addressOutOfRange
  | 0, _, _, h => by simp [cellsExist] at h
  | n + 1, a, x, h => by
    simp only [cellsExist] at h
    split at h
    · exact cellsExist_error h
    · cases h; rfl

/-- A memory read gives the cell, or raises AddressOutOfRange at its own address (`20_memory.md` R41). -/
theorem memRead_cases (s : State) (a : Nat) :
    (a < s.config.memSize ∧ memRead s a = .ok (s.core.mem.read a)) ∨
    (s.config.memSize ≤ a ∧ memRead s a = .error ⟨.addressOutOfRange, a⟩) := by
  by_cases h : a < s.config.memSize
  · exact .inl ⟨h, by simp [memRead, h]⟩
  · exact .inr ⟨Nat.le_of_not_lt h, by simp [memRead, h]⟩

/-- A pending memory write is inside memory, or AddressOutOfRange is raised at its address (`20_memory.md` R42). -/
theorem memWrite_cases (s : State) (a : Nat) (v : Cell) :
    (a < s.config.memSize ∧ memWrite s a v = .ok (a, v)) ∨
    (s.config.memSize ≤ a ∧ memWrite s a v = .error ⟨.addressOutOfRange, a⟩) := by
  by_cases h : a < s.config.memSize
  · exact .inl ⟨h, by simp [memWrite, h]⟩
  · exact .inr ⟨Nat.le_of_not_lt h, by simp [memWrite, h]⟩

/-! 4-bit arithmetic (`42_arith_compare.md` R110). -/

theorem add4_eq (a b : Cell) : add4 a b = a + b := by
  apply BitVec.eq_of_toNat_eq
  simp [add4, BitVec.toNat_add]

theorem sub4_eq (a b : Cell) : sub4 a b = a - b := by
  apply BitVec.eq_of_toInt_eq
  rw [BitVec.toInt_sub, sub4, BitVec.toInt_ofInt, BitVec.toInt_eq_toNat_bmod, BitVec.toInt_eq_toNat_bmod]
  simp

/-! Instructions. -/

/-- The pending writes of an instruction and what it may raise (`40_step.md` R85). -/
def effectOf (i : Instr) (s : State) : Except Raised Effect :=
  match i with
  | .hlt => .ok { acc := s.core.acc, zf := s.core.zf, store := none, halt := true, newPC := nextPC s 1
                  mar := s.core.pc, mdr := 0x0 }
  | .lda a => do
    operandCells s 2
    let m ← memRead s a.toNat
    return { acc := m, zf := zeroFlag m, store := none, halt := false, newPC := nextPC s 3, mar := a, mdr := m }
  | .sta a => do
    operandCells s 2
    let w ← memWrite s a.toNat s.core.acc
    return { acc := s.core.acc, zf := s.core.zf, store := some w, halt := false, newPC := nextPC s 3, mar := a
             mdr := s.core.acc }
  | .add a => do
    operandCells s 2
    let m ← memRead s a.toNat
    return { acc := add4 s.core.acc m, zf := zeroFlag (add4 s.core.acc m), store := none, halt := false
             newPC := nextPC s 3, mar := a, mdr := m }
  | .sub a => do
    operandCells s 2
    let m ← memRead s a.toNat
    return { acc := sub4 s.core.acc m, zf := zeroFlag (sub4 s.core.acc m), store := none, halt := false
             newPC := nextPC s 3, mar := a, mdr := m }
  | .jmp a => do
    operandCells s 2
    return { acc := s.core.acc, zf := s.core.zf, store := none, halt := false, newPC := a.toNat
             mar := operandAddr s 2, mdr := loCell a }
  | .jz a => do
    operandCells s 2
    return { acc := s.core.acc, zf := s.core.zf, store := none, halt := false
             newPC := if s.core.zf then a.toNat else nextPC s 3, mar := operandAddr s 2, mdr := loCell a }
  | .ldi v => do
    operandCells s 1
    return { acc := v, zf := zeroFlag v, store := none, halt := false, newPC := nextPC s 2
             mar := operandAddr s 1, mdr := v }
  | .cmp a => do
    operandCells s 2
    let m ← memRead s a.toNat
    return { acc := s.core.acc, zf := equalFlag s.core.acc m, store := none, halt := false, newPC := nextPC s 3
             mar := a, mdr := m }

/-- Every instruction ends through `finishStep` (`40_step.md` R86). -/
theorem exec_eq_finishStep (i : Instr) (s : State) :
    exec i s = .next (finishStep (opcodeOf i) (cyclesOf s.config.cycles i) (effectOf i s) s) := by
  cases i <;> rfl

/-- Everything an instruction's effect can be: a raised AddressOutOfRange, or pending writes of which the store, if any, is
inside memory, and of which only HLT's halts. -/
theorem effectOf_cases (i : Instr) (s : State) :
    (∃ a, effectOf i s = .error ⟨.addressOutOfRange, a⟩) ∨
    (∃ e, effectOf i s = .ok e ∧ (∀ w, e.store = some w → w.1 < s.config.memSize) ∧ (e.halt = true ↔ i = .hlt)) := by
  cases i
  case hlt => exact .inr ⟨_, rfl, by simp, by simp⟩
  case ldi v =>
    simp only [effectOf, operandCells_one]
    split_ifs <;> simp [bind, Except.bind, pure, Except.pure]
  case sta a =>
    simp only [effectOf, operandCells_two]
    rcases memWrite_cases s a.toNat s.core.acc with ⟨h, hr⟩ | ⟨h, hr⟩ <;> rw [hr] <;>
      split_ifs <;> simp [bind, Except.bind, pure, Except.pure, h]
  case jmp a =>
    simp only [effectOf, operandCells_two]
    split_ifs <;> simp [bind, Except.bind, pure, Except.pure]
  case jz a =>
    simp only [effectOf, operandCells_two]
    split_ifs <;> simp [bind, Except.bind, pure, Except.pure]
  all_goals
    rename_i a
    simp only [effectOf, operandCells_two]
    rcases memRead_cases s a.toNat with ⟨h, hr⟩ | ⟨h, hr⟩ <;> rw [hr] <;>
      split_ifs <;> simp [bind, Except.bind, pure, Except.pure]

/-- Everything an instruction can do: an error step for AddressOutOfRange, or the commit of its effect (`40_step.md` R86,
R90). -/
theorem exec_cases {i : Instr} {s t : State} (h : exec i s = .next t) :
    (∃ a, t = errorStep ⟨.addressOutOfRange, a⟩ (opcodeOf i) s) ∨
    (∃ e, effectOf i s = .ok e ∧ e.newPC < s.config.memSize ∧ (∀ w, e.store = some w → w.1 < s.config.memSize) ∧
      (e.halt = true ↔ i = .hlt) ∧
      t = { s with core := s.core.commit (opcodeOf i) (cyclesOf s.config.cycles i) e
                   cyclesConsumed := cyclesOf s.config.cycles i }) := by
  rw [exec_eq_finishStep] at h
  cases h
  rcases effectOf_cases i s with ⟨a, he⟩ | ⟨e, he, hw, hh⟩
  · exact .inl ⟨a, by rw [he]; rfl⟩
  · rcases finishStep_cases (opcodeOf i) (cyclesOf s.config.cycles i) (effectOf i s) s with
      ⟨x, hx, _⟩ | ⟨e', hx, _, ht⟩ | ⟨e', hx, hlt, ht⟩
    · rw [he] at hx; cases hx
    · exact .inl ⟨_, ht⟩
    · rw [he] at hx; cases hx
      exact .inr ⟨e, he, hlt, hw, hh, ht⟩

/-- Everything `step()` can do: nothing on a halted core, an instruction's effect, or an error step of the fetch
(`40_step.md` R81 to R83). -/
theorem coreStep_cases {s t : State} (h : coreStep s = .next t) :
    (s.core.halted = true ∧ t = { s with cyclesConsumed := 0 }) ∨
    (s.core.halted = false ∧ ∃ i rest, decode (fetchCells s) = .ok (i, rest) ∧ exec i s = .next t) ∨
    (s.core.halted = false ∧ ∃ x op, x.code ≠ .none ∧ t = errorStep x op s) := by
  unfold coreStep at h
  split_ifs at h with hh
  · cases h; exact .inl ⟨hh, rfl⟩
  · have hf : s.core.halted = false := by simpa using hh
    split at h
    · exact .inr (.inl ⟨hf, _, _, by assumption, h⟩)
    · cases h; exact .inr (.inr ⟨hf, _, _, by simp, rfl⟩)
    · cases h; exact .inr (.inr ⟨hf, _, _, by simp, rfl⟩)
    · cases h

/-- An instruction touches the core and the returned value only. -/
theorem exec_frame {i : Instr} {s t : State} (h : exec i s = .next t) :
    t.config = s.config ∧ t.circuit = s.circuit ∧ t.controller = s.controller ∧ t.engineResult = s.engineResult ∧
      t.inputs = s.inputs := by
  rw [exec_eq_finishStep] at h
  cases h
  simp

/-- `step()` touches the core and the returned value only (`60_exceptions.md` R211, R218). -/
theorem coreStep_frame {s t : State} (h : coreStep s = .next t) :
    t.config = s.config ∧ t.circuit = s.circuit ∧ t.controller = s.controller ∧ t.engineResult = s.engineResult ∧
      t.inputs = s.inputs := by
  rcases coreStep_cases h with ⟨_, rfl⟩ | ⟨_, _, _, _, he⟩ | ⟨_, _, _, _, rfl⟩
  · simp
  · exact exec_frame he
  · simp

/-- `step()` never refuses. -/
theorem coreStep_ne_refused (s : State) (r : Refusal) : coreStep s ≠ .refused r := by
  unfold coreStep
  split_ifs
  · simp
  · split <;> simp [exec_eq_finishStep]

/-- The cell `k` places after `a`, if every cell up to it exists. -/
theorem cellsFrom_getElem? {s : State} : ∀ {n a k : Nat}, k < n → a + k < s.config.memSize →
    (cellsFrom s n a)[k]? = some (s.core.mem.read (a + k))
  | 0, _, _, h, _ => by omega
  | n + 1, a, 0, _, h => by
    simp only [Nat.add_zero] at h
    simp [cellsFrom, h]
  | n + 1, a, k + 1, hk, h => by
    have ha : a < s.config.memSize := by omega
    simp only [cellsFrom, ha, if_true, List.getElem?_cons_succ]
    rw [cellsFrom_getElem? (by omega) (by omega)]
    congr 2; omega

/-! Outcomes of an instruction, from its effect. -/

/-- An effect whose new PC is inside memory is committed (`40_step.md` R86). -/
theorem exec_of_effect {i : Instr} {s : State} {e : Effect} (he : effectOf i s = .ok e) (hp :
    e.newPC < s.config.memSize) :
  exec i s = .next { s with core := s.core.commit (opcodeOf i) (cyclesOf s.config.cycles i) e
                            cyclesConsumed := cyclesOf s.config.cycles i } := by
  rw [exec_eq_finishStep, he]; simp [finishStep, hp]

/-- A raised exception makes an error step (`40_step.md` R90). -/
theorem exec_of_raise {i : Instr} {s : State} {a : Nat} (he : effectOf i s = .error ⟨.addressOutOfRange, a⟩) :
  exec i s = .next (intoError .addressOutOfRange a (opcodeOf i) s) := by
  rw [exec_eq_finishStep, he]; rfl

/-- A new PC at or beyond `MEM_SIZE` makes an error step (`40_step.md` R86). -/
theorem exec_of_newPC_beyond {i : Instr} {s : State} {e : Effect} (he : effectOf i s = .ok e) (hp :
    s.config.memSize ≤ e.newPC) :
  exec i s = .next (intoError .addressOutOfRange e.newPC (opcodeOf i) s) := by
  rw [exec_eq_finishStep, he]; simp [finishStep, Nat.not_lt.mpr hp]; rfl

/-- A PC advanced as a number is the PC advanced as an address. -/
theorem ofNat_toNat_add (p : BitVec 8) (k : Nat) : BitVec.ofNat 8 (p.toNat + k) = p + BitVec.ofNat 8 k := by
  rw [BitVec.ofNat_add, BitVec.ofNat_toNat, BitVec.setWidth_eq]


/-- What is fetched depends on the core and the parameters alone (`40_step.md` R80). -/
theorem fetchCells_congr {s t : State} (hk : t.core = s.core) (hc : t.config = s.config) :
    fetchCells t = fetchCells s := by
  unfold fetchCells
  rw [hk]
  generalize s.core.pc.toNat = a
  generalize 3 = n
  induction n generalizing a with
  | zero => rfl
  | succ n ih => simp [cellsFrom, hk, hc, ih]

/-- The core's step executes the instruction the cells at PC decode to (`40_step.md` R82, R83). -/
theorem coreStep_of_decode {s : State} {i : Instr} {rest : List Cell} (hh : s.core.halted = false)
    (hd : decode (fetchCells s) = .ok (i, rest)) : coreStep s = exec i s := by
  simp [coreStep, hh, hd]

end Sys2Proof.Machine
end

