-- ==== Sys2Proof/Laws/Controller.lean ====
section
/-!
SUPPORT. The controller: what an emission, a batch and the breakpoint set's operations can do, each said once.
-/

namespace Sys2Proof.Machine

open Sys2Proof.Safety

/-- A next state of two operations in a row is one of each. -/
theorem andThen_eq_next {o : Host.Outcome State Fault Refusal} {f : State → Host.Outcome State Fault Refusal} {t :
    State} :
    andThen o f = .next t ↔ ∃ u, o = .next u ∧ f u = .next t := by
  cases o <;> simp [andThen]

/-- A fault of two operations in a row is the first's, or the second's. -/
theorem andThen_eq_fault {o : Host.Outcome State Fault Refusal} {f : State → Host.Outcome State Fault Refusal} {r :
    Fault} :
    andThen o f = .fault r ↔ o = .fault r ∨ ∃ u, o = .next u ∧ f u = .fault r := by
  cases o <;> simp [andThen]

/-- With room in the channel an event is appended (`45_controller.md` R161). -/
theorem emit_of_room {s : State} (e : Event) (h : RoomFor 1 s) : emit e s = .next (withEvents [e] s) := by
  have : s.controller.events.length < s.config.evtFifoDepth := h
  simp [emit, this, withEvents]

/-- An emission that answers a next state had room and appended the event. -/
theorem emit_eq_next {e : Event} {s t : State} : emit e s = .next t ↔ RoomFor 1 s ∧ t = withEvents [e] s := by
  unfold emit RoomFor
  split_ifs with h
  · simp only [Host.Outcome.next.injEq, withEvents]
    exact ⟨fun ht => ⟨h, ht.symm⟩, fun ht => ht.2.symm⟩
  · simp only [false_iff]
    exact fun ht => h ht.1

/-- An emission never faults. -/
theorem emit_ne_fault (e : Event) (s : State) (r : Fault) : emit e s ≠ .fault r := by
  unfold emit; split_ifs <;> simp

/-- Everything a batch can do: after some steps of the core it reports a halt or an error, hits a breakpoint, or, all of its
instructions executed, emits one STATE_UPDATE (`45_controller.md` R168). -/
theorem batch_cases : ∀ {n : Nat} {s t : State}, batch n s = .next t →
    ∃ k u, k ≤ n ∧ coreSteps k s = some u ∧
      ((u.core.halted = true ∧ report (setRunning false u) = .next t) ∨
       (u.core.halted = false ∧ u.core.pc ∈ u.controller.breakpoints ∧
          RoomFor 1 u ∧ update (withEvents [.breakpointHit u.core.pc] (setRunning false u)) = .next t) ∨
       ((k = 0 ∨ u.core.halted = false) ∧ update u = .next t))
  | 0, s, t, h => ⟨0, s, Nat.le_refl 0, rfl, .inr (.inr ⟨.inl rfl, h⟩)⟩
  | n + 1, s, t, h => by
    simp only [batch, andThen_eq_next] at h
    obtain ⟨u, hu, h⟩ := h
    have step (k : Nat) : coreSteps (k + 1) s = coreSteps k u := by simp [coreSteps, hu]
    split_ifs at h with hh hb
    · exact ⟨1, u, by omega, by rw [step]; rfl, .inl ⟨hh, h⟩⟩
    · obtain ⟨v, hv, h⟩ := andThen_eq_next.mp h
      obtain ⟨hr, rfl⟩ := emit_eq_next.mp hv
      exact ⟨1, u, by omega, by rw [step]; rfl, .inr (.inl ⟨by simpa using hh, hb, hr, h⟩)⟩
    · obtain ⟨k, v, hk, hv, hc⟩ := batch_cases h
      refine ⟨k + 1, v, by omega, by rw [step]; exact hv, ?_⟩
      rcases hc with hc | hc | ⟨hc, ht⟩
      · exact .inl hc
      · exact .inr (.inl hc)
      · refine .inr (.inr ⟨.inr ?_, ht⟩)
        rcases hc with rfl | hc
        · simp only [coreSteps, Option.some.injEq] at hv
          subst hv; simpa using hh
        · exact hc

/-- What every step of the core keeps, every number of steps keeps. -/
theorem coreSteps_keeps {P : State → Prop} (hP : ∀ s t, P s → coreStep s = .next t → P t) :
    ∀ {k : Nat} {s t : State}, P s → coreSteps k s = some t → P t
  | 0, s, t, h, ht => by
    simp only [coreSteps, Option.some.injEq] at ht
    exact ht ▸ h
  | k + 1, s, t, h, ht => by
    simp only [coreSteps] at ht
    split at ht
    · exact coreSteps_keeps hP (hP _ _ h (by assumption)) ht
    · cases ht
    · cases ht

/-- Any number of steps of the core touch the core and the returned value only. -/
theorem coreSteps_frame {k : Nat} {s t : State} (h : coreSteps k s = some t) :
    t.config = s.config ∧ t.circuit = s.circuit ∧ t.controller = s.controller ∧ t.engineResult = s.engineResult ∧
      t.inputs = s.inputs := by
  refine coreSteps_keeps (P := fun t => t.config = s.config ∧ t.circuit = s.circuit ∧ t.controller = s.controller ∧
    t.engineResult = s.engineResult ∧ t.inputs = s.inputs) ?_ (by simp) h
  intro u v hu hv
  obtain ⟨h1, h2, h3, h4, h5⟩ := coreStep_frame hv
  exact ⟨h1.trans hu.1, h2.trans hu.2.1, h3.trans hu.2.2.1, h4.trans hu.2.2.2.1, h5.trans hu.2.2.2.2⟩

/-- Adding a breakpoint adds that address (`45_controller.md` R176). -/
theorem mem_addBreakpoint (a b : Addr) : ∀ bs : List Addr, b ∈ addBreakpoint a bs ↔ b = a ∨ b ∈ bs
  | [] => by simp [addBreakpoint]
  | c :: bs => by
    simp only [addBreakpoint]
    have ih := mem_addBreakpoint a b bs
    split_ifs with h1 h2
    · simp
    · subst h2; simp
    · simp only [List.mem_cons, ih]; tauto

/-- Removing a breakpoint removes that address (`45_controller.md` R176). -/
theorem mem_removeBreakpoint (a b : Addr) (bs : List Addr) : b ∈ removeBreakpoint a bs ↔ b ≠ a ∧ b ∈ bs := by
  simp [removeBreakpoint, and_comm]

/-- A list of addresses rises exactly when each is below all that follow. -/
theorem risingAddrs_iff_pairwise : ∀ bs : List Addr, risingAddrs bs = true ↔ bs.Pairwise (· < ·)
  | [] => by simp [risingAddrs]
  | [a] => by simp [risingAddrs]
  | a :: b :: bs => by
    rw [risingAddrs, Bool.and_eq_true, decide_eq_true_eq, risingAddrs_iff_pairwise (b :: bs)]
    constructor
    · rintro ⟨hab, h⟩
      refine List.pairwise_cons.mpr ⟨?_, h⟩
      intro c hc
      rcases List.mem_cons.mp hc with rfl | hc
      · exact hab
      · exact BitVec.lt_trans hab ((List.pairwise_cons.mp h).1 c hc)
    · intro h
      exact ⟨(List.pairwise_cons.mp h).1 b (by simp), (List.pairwise_cons.mp h).2⟩

/-- Adding a breakpoint keeps the addresses rising. -/
theorem risingAddrs_addBreakpoint (a : Addr) : ∀ {bs : List Addr}, risingAddrs bs = true →
    risingAddrs (addBreakpoint a bs) = true := by
  intro bs
  rw [risingAddrs_iff_pairwise, risingAddrs_iff_pairwise]
  induction bs with
  | nil => intro _; simp [addBreakpoint]
  | cons b bs ih =>
    intro h
    have hb := List.pairwise_cons.mp h
    simp only [addBreakpoint]
    split_ifs with h1 h2
    · refine List.pairwise_cons.mpr ⟨?_, h⟩
      intro c hc
      rcases List.mem_cons.mp hc with rfl | hc
      · exact h1
      · exact BitVec.lt_trans h1 (hb.1 c hc)
    · exact h
    · refine List.pairwise_cons.mpr ⟨?_, ih hb.2⟩
      intro c hc
      rcases (mem_addBreakpoint a c bs).mp hc with e | hc
      · have hlt : ¬ a.toNat < b.toNat := h1
        have hne : a.toNat ≠ b.toNat := fun e => h2 (BitVec.eq_of_toNat_eq e)
        show b.toNat < c.toNat
        rw [e]; omega
      · exact hb.1 c hc

/-- Removing a breakpoint keeps the addresses rising. -/
theorem risingAddrs_removeBreakpoint (a : Addr) {bs : List Addr} (h : risingAddrs bs = true) :
    risingAddrs (removeBreakpoint a bs) = true := by
  rw [risingAddrs_iff_pairwise] at h ⊢
  exact h.filter _

/-- Adding an address that is present changes nothing (`10_state.md` R30). -/
theorem addBreakpoint_of_mem (a : Addr) : ∀ {bs : List Addr}, risingAddrs bs = true → a ∈ bs →
    addBreakpoint a bs = bs := by
  intro bs
  rw [risingAddrs_iff_pairwise]
  induction bs with
  | nil => intro _ h; cases h
  | cons b bs ih =>
    intro h hm
    have hb := List.pairwise_cons.mp h
    simp only [addBreakpoint]
    split_ifs with h1 h2
    · rcases List.mem_cons.mp hm with rfl | hm
      · exact absurd h1 (BitVec.lt_irrefl a)
      · exact absurd (BitVec.lt_trans h1 (hb.1 a hm)) (BitVec.lt_irrefl a)
    · rfl
    · rcases List.mem_cons.mp hm with rfl | hm
      · exact absurd rfl h2
      · rw [ih hb.2 hm]

/-! Runs of `step()` inside a tick. -/

/-- A run of several steps begins with one (`45_controller.md` R168). -/
theorem coreSteps_succ {k : Nat} {s t : State} (h : coreSteps (k+1) s = some t) : ∃ u, coreStep s = .next u ∧
    coreSteps k u = some t := by
  simp only [coreSteps] at h; split at h
  · exact ⟨_, by assumption, h⟩
  · cases h
  · cases h

/-- A run of several steps ends with one (`45_controller.md` R168). -/
theorem coreSteps_succ_last {j : Nat} : ∀ {s t : State}, coreSteps (j+1) s = some t → ∃ u, coreSteps j s = some u ∧
    coreStep u = .next t := by
  induction j with
  | zero => intro s t h; obtain ⟨u, hu, h⟩ := coreSteps_succ h; simp [coreSteps] at h; subst h; exact ⟨s, rfl, hu⟩
  | succ j ih =>
    intro s t h
    obtain ⟨v, hv, h⟩ := coreSteps_succ h
    obtain ⟨u, hu, h⟩ := ih h
    exact ⟨u, by simp [coreSteps, hv, hu], h⟩

/-- The part of a batch that meets no halt and no breakpoint is a run of steps (`45_controller.md` R168). -/
theorem batch_of_coreSteps : ∀ {j : Nat} {n : Nat} {s u : State}, coreSteps j s = some u →
    (∀ k v, 0 < k → k ≤ j → coreSteps k s = some v → v.core.halted = false ∧ v.core.pc ∉ s.controller.breakpoints) →
    batch (j + n) s = batch n u
  | 0, n, s, u, h, _ => by simp [coreSteps] at h; subst h; simp
  | j+1, n, s, u, h, hk => by
    obtain ⟨v, hv, h⟩ := coreSteps_succ h
    have h1 := hk 1 v (by omega) (by omega) (by simp [coreSteps, hv])
    have fr := (coreStep_frame hv).2.2.1
    rw [show j + 1 + n = (j + n) + 1 by omega]
    simp only [batch, hv, andThen]
    rw [if_neg (by simp [h1.1]), if_neg (by rw [fr]; exact h1.2)]
    apply batch_of_coreSteps h
    intro k w h0 hkj hw
    rw [fr]
    exact hk (k+1) w (by omega) (by omega) (by simp [coreSteps, hv, hw])

/-- A tick in Running is its batch (`45_controller.md` R168). -/
theorem tick_eq_batch {s : State} (h : s.controller.running = true) {n} (hn : n =
    (if s.controller.speed = 0 then s.config.fastestBatch else s.controller.speed)) : tick s = batch n s := by
  subst hn; simp [tick, h, batchSize]


end Sys2Proof.Machine
end

