-- ==== Sys2Proof/Laws/Legal.lean ====
section
/-!
SUPPORT. What keeps the ISA Core legal: an instruction, a step, `reset()` and `loadProgram()` (`10_state.md` R19).
-/

namespace Sys2Proof.Safety

open Sys2Proof.Machine

/-- An instruction keeps the core legal. -/
theorem legalCore_exec {i : Instr} {s t : State} (hl : LegalCore s) (h : exec i s = .next t) : LegalCore t := by
  obtain ⟨f1, _⟩ := exec_frame h
  rcases exec_cases h with ⟨a, rfl⟩ | ⟨e, he, hlt, hw, hh, rfl⟩
  · exact ⟨hl.config, hl.pcInMemory, fun _ => rfl, by simp, hl.memCanonical, hl.memBelow⟩
  · refine ⟨hl.config, ?_, ?_, hl.errorCodeNone, Memory.wf_apply _ hl.memCanonical, ?_⟩
    · simp; omega
    · intro hE; simp [hl.erroredHalted hE]
    · simp only [IsaCore.commit_mem]
      cases hs : e.store with
      | none => exact hl.memBelow
      | some w => exact Memory.below_write _ hl.memBelow (hw w hs)

/-- A step keeps the core legal. -/
theorem legalCore_coreStep {s t : State} (hl : LegalCore s) (h : coreStep s = .next t) : LegalCore t := by
  rcases coreStep_cases h with ⟨_, rfl⟩ | ⟨_, i, r, _, he⟩ | ⟨_, x, op, hx, rfl⟩
  · exact ⟨hl.config, hl.pcInMemory, hl.erroredHalted, hl.errorCodeNone, hl.memCanonical, hl.memBelow⟩
  · exact legalCore_exec hl he
  · exact ⟨hl.config, hl.pcInMemory, fun _ => rfl, by simpa using hx, hl.memCanonical, hl.memBelow⟩

/-- Legality of the core reads the parameters and the core only. -/
theorem legalCore_congr {s t : State} (hl : LegalCore s) (h1 : t.config = s.config) (h2 : t.core = s.core) :
    LegalCore t := by
  constructor <;> simp only [h1, h2]
  exacts [hl.config, hl.pcInMemory, hl.erroredHalted, hl.errorCodeNone, hl.memCanonical, hl.memBelow]

/-- `reset()` leaves a legal core. -/
theorem legalCore_resetCore {s : State} (hl : LegalCore s) : LegalCore (resetCore s) := by
  refine ⟨hl.config, ?_, by simp [IsaCore.init], by simp [IsaCore.init], ?_, ?_⟩
  · have := hl.pcInMemory; simp [IsaCore.init]; omega
  · simp only [resetCore_core_mem]; split_ifs; exacts [rfl, hl.memCanonical]
  · simp only [resetCore_core_mem, resetCore_config]; split_ifs; exacts [rfl, hl.memBelow]

/-- `loadProgram()` keeps the core legal. -/
theorem legalCore_loadProgram {s : State} (ws a) (hl : LegalCore s) : LegalCore (loadProgram ws a s) := by
  rcases loadProgram_cases ws a s with ⟨h1, h2⟩ | ⟨h1, h2⟩ <;> rw [h2]
  · exact ⟨hl.config, hl.pcInMemory, hl.erroredHalted, hl.errorCodeNone, Memory.wf_writeCells _ _ hl.memCanonical,
        Memory.below_writeCells _ _ hl.memBelow h1⟩
  · exact ⟨hl.config, hl.pcInMemory, fun _ => rfl, by simp, hl.memCanonical, hl.memBelow⟩

/-- A legal core does not fault (`40_step.md` R82). -/
theorem coreStep_ne_fault_of_legal {s : State} (hl : LegalCore s) (f : Fault) : coreStep s ≠ .fault f := by
  unfold coreStep
  split_ifs
  · simp
  · split <;> simp [exec_eq_finishStep]
    rename_i hd
    simp [fetchCells, cellsFrom, hl.pcInMemory, decode] at hd
    split at hd <;> (try simp at hd) <;> split at hd <;> (try simp at hd)

end Sys2Proof.Safety
end

