-- ==== Sys2Proof/Laws/PerInstr.lean ====
section
/-!
SUPPORT. A family of statements about every instruction as syntax, one lemma per constructor.
-/

/-- The first cell of an instruction's encoding is its opcode, and the encoding has the length that the opcode alone decides
(`30_encoding.md` R60, R68). -/
def Sys2Proof.Laws.OpcodeCell.Statement (i : Sys2Proof.Instr) : Prop :=
  (Sys2Proof.encode i).head? = some (Sys2Proof.opcodeOf i) ∧
  Sys2Proof.lengthOf (Sys2Proof.opcodeOf i) = some (Sys2Proof.encode i).length ∧
  (Sys2Proof.encode i).length = i.length

theorem Sys2Proof.Laws.OpcodeCell.hlt : Sys2Proof.Laws.OpcodeCell.Statement .hlt :=
  ⟨rfl, rfl, rfl⟩

theorem Sys2Proof.Laws.OpcodeCell.lda (addr : Sys2Proof.Addr) : Sys2Proof.Laws.OpcodeCell.Statement (.lda addr) :=
  ⟨rfl, rfl, rfl⟩

theorem Sys2Proof.Laws.OpcodeCell.sta (addr : Sys2Proof.Addr) : Sys2Proof.Laws.OpcodeCell.Statement (.sta addr) :=
  ⟨rfl, rfl, rfl⟩

theorem Sys2Proof.Laws.OpcodeCell.add (addr : Sys2Proof.Addr) : Sys2Proof.Laws.OpcodeCell.Statement (.add addr) :=
  ⟨rfl, rfl, rfl⟩

theorem Sys2Proof.Laws.OpcodeCell.sub (addr : Sys2Proof.Addr) : Sys2Proof.Laws.OpcodeCell.Statement (.sub addr) :=
  ⟨rfl, rfl, rfl⟩

theorem Sys2Proof.Laws.OpcodeCell.jmp (addr : Sys2Proof.Addr) : Sys2Proof.Laws.OpcodeCell.Statement (.jmp addr) :=
  ⟨rfl, rfl, rfl⟩

theorem Sys2Proof.Laws.OpcodeCell.jz (addr : Sys2Proof.Addr) : Sys2Proof.Laws.OpcodeCell.Statement (.jz addr) :=
  ⟨rfl, rfl, rfl⟩

theorem Sys2Proof.Laws.OpcodeCell.ldi (imm : Sys2Proof.Cell) : Sys2Proof.Laws.OpcodeCell.Statement (.ldi imm) :=
  ⟨rfl, rfl, rfl⟩

theorem Sys2Proof.Laws.OpcodeCell.cmp (addr : Sys2Proof.Addr) : Sys2Proof.Laws.OpcodeCell.Statement (.cmp addr) :=
  ⟨rfl, rfl, rfl⟩
end

