-- ==== Sys2Proof/Tests/Slice0.lean ====
section
/-!
SUPPORT. Small tests: what is refused as ill-formed, words written out from the encoding tables, the vectors of
`95_test_vectors.md` (each test names its vector), and for every statement with hypotheses a witness that meets them.
-/

namespace Sys2Proof.Tests

open Sys2Proof Sys2Proof.Machine Sys2Proof.Safety

/-! ### Helpers -/

/-- A machine's parameters with a given `MEM_SIZE` and `SETTLE_CAP`; 1000 instructions per fastest tick, channels of 2. -/
def config (memSize cap : Nat) : Config :=
  { memSize := memSize, cycles := CycleTable.reference, settleCap := cap, fastestBatch := 1000
    cmdFifoDepth := 2, evtFifoDepth := 2, resetClearsMemory := true }

/-- An Idle machine with cells from `start`, PC, ACC and Z, no event pending, the rest as reset leaves it. -/
def machine (memSize start : Nat) (cells : List Cell) (pc : Addr) (acc : Cell) (zf : Bool) : State :=
  { config := config memSize 100
    core := { IsaCore.init with pc := pc, acc := acc, zf := zf, mem := Memory.writeCells [] start cells }
    circuit := none
    controller := { Controller.init with events := [] }
    cyclesConsumed := 0
    engineResult := none
    inputs := [] }

/-- A machine that is Running at a speed with a breakpoint set. -/
def running (speed : Nat) (bps : List Addr) (s : State) : State :=
  { s with controller := { s.controller with running := true, speed := speed, breakpoints := bps } }

/-- A machine whose core is done: halted, and errored or not. -/
def done (errored : Bool) (s : State) : State :=
  { s with core := { s.core with
      halted := true, errored := errored, errorCode := if errored then .invalidOpcode else .none } }

/-- A line of `95_test_vectors.md`: `ret`, `pc acc z`, `ir mar mdr`, `halted errored`, `cyc ins`. -/
def line (o : Host.Outcome State Fault Refusal) : Option (List Nat) :=
  (nextState? o).map fun t =>
    [t.cyclesConsumed, t.core.pc.toNat, t.core.acc.toNat, t.core.zf.toNat, t.core.ir.toNat, t.core.mar.toNat,
      t.core.mdr.toNat, t.core.halted.toNat, t.core.errored.toNat, t.core.cycleCount.toNat, t.core.instructionCount.toNat]

/-- The cell at an address after a step. -/
def cellAfter (o : Host.Outcome State Fault Refusal) (a : Nat) : Option Cell :=
  (nextState? o).map fun t => t.core.mem.read a

/-- `err(c, a, o)` after a step. -/
def err (o : Host.Outcome State Fault Refusal) : Option (Nat × Nat × Nat) :=
  (nextState? o).map fun t => (t.core.errorCode.number.toNat, t.core.errorAddress.toNat, t.core.errorOpcode.toNat)

/-- The numbers of the events after a step, the oldest first (`45_controller.md` R181). -/
def eventTags (o : Host.Outcome State Fault Refusal) : Option (List Nat) :=
  (nextState? o).map fun t => t.controller.events.map Event.tag

/-! ### Words written out from the tables of `30_encoding.md` -/

/-- R65, R61: `HLT` is the one cell 0000. -/
theorem test_word_hlt : decode [0b0000] = .ok (.hlt, []) := by decide

/-- R65, R63: `LDA 0x4B`: 0001, then 0100, then 1011. -/
theorem test_word_lda : decode [0b0001, 0b0100, 0b1011] = .ok (.lda 0x4B, []) := by decide

/-- R65, R63: `STA 0x20`: 0010, then 0010, then 0000. -/
theorem test_word_sta : decode [0b0010, 0b0010, 0b0000] = .ok (.sta 0x20, []) := by decide

/-- R65, R63: `ADD 0x30`: 0011, then 0011, then 0000. -/
theorem test_word_add : decode [0b0011, 0b0011, 0b0000] = .ok (.add 0x30, []) := by decide

/-- R65, R63: `SUB 0x0C`: 0100, then 0000, then 1100. -/
theorem test_word_sub : decode [0b0100, 0b0000, 0b1100] = .ok (.sub 0x0C, []) := by decide

/-- R65, R63: `JMP 0xFD`: 0101, then 1111, then 1101. -/
theorem test_word_jmp : decode [0b0101, 0b1111, 0b1101] = .ok (.jmp 0xFD, []) := by decide

/-- R65, R63: `JZ 0x1B`: 0110, then 0001, then 1011. -/
theorem test_word_jz : decode [0b0110, 0b0001, 0b1011] = .ok (.jz 0x1B, []) := by decide

/-- R65, R62: `LDI 5`: 0111, then 0101. -/
theorem test_word_ldi : decode [0b0111, 0b0101] = .ok (.ldi 5, []) := by decide

/-- R65, R63: `CMP 0x32`: 1000, then 0011, then 0010. -/
theorem test_word_cmp : decode [0b1000, 0b0011, 0b0010] = .ok (.cmp 0x32, []) := by decide

/-- R66: 1001 is the least illegal opcode, and no operand cell is looked at. -/
theorem test_word_illegal : decode [0b1001] = .error (.illegalOpcode 9) := by decide

/-- A table word has cell 0 in its lowest bits: `STA 0x20` is 0000 0010 0010. -/
theorem test_table_word : decodeTableWord 12 0b000000100010 = some (.sta 0x20) := by decide

/-- A placed word is what the first step after reset runs: `LDI 5` (R100). -/
theorem test_first_step : (line (step (State.reset.withFetchWord 8 0b01010111))) =
    some [2, 2, 5, 0, 7, 1, 5, 0, 0, 2, 1] := by decide

/-! ### What is ill-formed is refused -/

/-- Every instruction is well-formed (R67); parameters as the reference has them are. -/
theorem test_wellFormed : (config 256 100).wellFormed = true ∧ (Instr.jmp 0xFF).wellFormed = true := by decide

/-- R5: no cells, too many cells, a cap below 2, no batch, no channel. -/
theorem test_illFormed_config :
    (config 0 100).wellFormed = false ∧ (config 257 100).wellFormed = false ∧ (config 256 1).wellFormed = false ∧
    { config 256 100 with fastestBatch := 0 }.wellFormed = false ∧
    { config 256 100 with cmdFifoDepth := 0 }.wellFormed = false ∧
    { config 256 100 with evtFifoDepth := 0 }.wellFormed = false := by decide

/-- R88: every entry of the cycle table is at least 1. -/
theorem test_illFormed_cycles :
    { CycleTable.reference with hlt := 0 }.wellFormed = false ∧ { CycleTable.reference with lda := 0 }.wellFormed = false ∧
    { CycleTable.reference with sta := 0 }.wellFormed = false ∧ { CycleTable.reference with add := 0 }.wellFormed = false ∧
    { CycleTable.reference with sub := 0 }.wellFormed = false ∧ { CycleTable.reference with jmp := 0 }.wellFormed = false ∧
    { CycleTable.reference with jz := 0 }.wellFormed = false ∧ { CycleTable.reference with ldi := 0 }.wellFormed = false ∧
    { CycleTable.reference with cmp := 0 }.wellFormed = false ∧
    { config 256 100 with cycles := { CycleTable.reference with cmp := 0 } }.wellFormed = false := by decide

/-- A one-bit wire. -/
def wire (id : Nat) (v : Tri) : Wire :=
  { id := id, name := "", width := 1, isInput := false, isOutput := false, bits := [v] }

/-- Bit 0 of a wire. -/
def port (w : Nat) : Port := { wireId := w, bitIndex := 0 }

/-- A combinational gate on one-bit wires. -/
def gate (id : Nat) (t : GateType) (ins outs : List Nat) : Gate :=
  { id := id, name := "", type := t, inputs := ins.map port, outputs := outs.map port, stored := none }

/-- A DFF that stores a bit. -/
def dff (id : Nat) (stored : Tri) (d q : Nat) : Gate :=
  { id := id, name := "", type := .dff, inputs := [port d], outputs := [port q], stored := some stored }

/-- A circuit of cycle 0. -/
def circuit (wires : List Wire) (gates : List Gate) : Circuit :=
  { cycle := 0, stable := false, wires := wires, gates := gates }

/-- Scenario B's circuit: `c = a AND b`. -/
def scenarioB (a b c : Tri) : Circuit := circuit [wire 0 a, wire 1 b, wire 2 c] [gate 0 .and [0, 1] [2]]

/-- The toggle of 3.3: `d = NOT q`, `q` a DFF of `d`. -/
def toggle : Circuit := circuit [wire 0 .zero, wire 1 .zero] [gate 0 .not [0] [1], dff 1 .zero 1 0]

/-- NC1's circuit: an inverter that feeds itself. -/
def oscillator (w : Tri) : Circuit := circuit [wire 0 w] [gate 0 .not [0] [0]]

theorem test_wellFormed_circuit :
    (scenarioB .zero .zero .zero).wellFormed = true ∧ toggle.wellFormed = true ∧ (oscillator .x).wellFormed = true := by
  decide

/-- R26: a wire's id is not its index, a width of 0, a `bits` of another length. -/
theorem test_illFormed_wire :
    (circuit [wire 1 .zero] []).wellFormed = false ∧
    (circuit [{ wire 0 .zero with width := 0, bits := [] }] []).wellFormed = false ∧
    (circuit [{ wire 0 .zero with bits := [.zero, .zero] }] []).wellFormed = false := by decide

/-- EG10 and R26: a NAND, an AND with one input, a NOT with two, no output, a gate id that is not its index. -/
theorem test_illFormed_gate :
    (circuit [wire 0 .zero, wire 1 .zero] [gate 0 (.other "NAND") [0, 0] [1]]).wellFormed = false ∧
    (circuit [wire 0 .zero, wire 1 .zero] [gate 0 .and [0] [1]]).wellFormed = false ∧
    (circuit [wire 0 .zero, wire 1 .zero] [gate 0 .or [0] [1]]).wellFormed = false ∧
    (circuit [wire 0 .zero, wire 1 .zero] [gate 0 .xor [0] [1]]).wellFormed = false ∧
    (circuit [wire 0 .zero, wire 1 .zero] [gate 0 .not [0, 0] [1]]).wellFormed = false ∧
    (circuit [wire 0 .zero, wire 1 .zero] [gate 0 .buf [] [1]]).wellFormed = false ∧
    (circuit [wire 0 .zero, wire 1 .zero] [gate 0 .not [0] []]).wellFormed = false ∧
    (circuit [wire 0 .zero, wire 1 .zero] [gate 1 .not [0] [1]]).wellFormed = false := by decide

/-- EG10 and R26: a port on a wire that does not exist, a bit that does not exist, on either side. -/
theorem test_illFormed_port :
    (circuit [wire 0 .zero] [gate 0 .not [9] [0]]).wellFormed = false ∧
    (circuit [wire 0 .zero] [gate 0 .not [0] [9]]).wellFormed = false ∧
    (circuit [wire 0 .zero] [{ gate 0 .not [0] [0] with inputs := [⟨0, 1⟩] }]).wellFormed = false := by decide

/-- R24, R26: `stored` on a gate that is no DFF, none on a DFF, a DFF with no input. -/
theorem test_illFormed_stored :
    (circuit [wire 0 .zero] [{ gate 0 .not [0] [0] with stored := some .zero }]).wellFormed = false ∧
    (circuit [wire 0 .zero] [{ dff 0 .zero 0 0 with stored := none }]).wellFormed = false ∧
    (circuit [wire 0 .zero] [{ dff 0 .zero 0 0 with inputs := [] }]).wellFormed = false := by decide

/-! ### The ISA Core (`95_test_vectors.md` section 2) -/

/-- LS1: LDI 0 sets Z. -/
theorem test_ldi_zero : line (coreStep (machine 256 0 [7, 0] 0 9 false)) = some [2, 2, 0, 1, 7, 1, 0, 0, 0, 2, 1] := by decide

/-- LS7: LDI in the last two cells writes nothing but the error state. -/
theorem test_ldi_end : line (coreStep (machine 256 0xFE [7, 5] 0xFE 3 false)) = some [0, 0xFE, 3, 0, 0, 0, 0, 1, 1, 0, 0] ∧
    err (coreStep (machine 256 0xFE [7, 5] 0xFE 3 false)) = some (2, 0x100, 7) := by decide

/-- LS4: LDA of its own opcode cell. -/
theorem test_lda_own : line (coreStep (machine 256 0 [1, 0, 0] 0 0 false)) = some [4, 3, 1, 0, 1, 0, 1, 0, 0, 4, 1] := by decide

/-- LS6: a three-cell instruction that ends at FE. -/
theorem test_lda_end : line (coreStep (machine 256 0xFC [1, 0, 0, 0] 0xFC 7 false)) =
    some [4, 0xFF, 0, 1, 1, 0, 0, 0, 0, 4, 1] := by decide

/-- LS5: STA stores and leaves Z. -/
theorem test_sta : line (coreStep (machine 256 2 [2, 2, 0] 2 5 true)) = some [4, 5, 5, 1, 2, 0x20, 5, 0, 0, 4, 1] ∧
    cellAfter (coreStep (machine 256 2 [2, 2, 0] 2 5 true)) 0x20 = some 5 := by decide

/-- LS10: the store of an STA that ends at the last cell is not committed. -/
theorem test_sta_end : err (coreStep (machine 256 0xFD [2, 2, 0] 0xFD 5 false)) = some (2, 0x100, 2) ∧
    cellAfter (coreStep (machine 256 0xFD [2, 2, 0] 0xFD 5 false)) 0x20 = some 0 := by decide

/-- A program at 0 and one data cell at 0x30, with ACC. -/
def withData (cells : List Cell) (acc m : Cell) : State :=
  let s := machine 256 0 cells 0 acc false
  { s with core := { s.core with mem := s.core.mem.write 0x30 m } }

/-- AR1: 15 + 1 wraps to 0 and sets Z. -/
theorem test_add_wraps : line (coreStep (withData [3, 3, 0] 15 1)) = some [4, 3, 0, 1, 3, 0x30, 1, 0, 0, 4, 1] := by decide

/-- AR12: ADD of its own opcode cell. -/
theorem test_add_own : line (coreStep (machine 256 0 [3, 0, 0] 0 4 false)) = some [4, 3, 7, 0, 3, 0, 3, 0, 0, 4, 1] := by decide

/-- AR6: 0 - 1 wraps to 15. -/
theorem test_sub_wraps : line (coreStep (withData [4, 3, 0] 0 1)) = some [4, 3, 15, 0, 4, 0x30, 1, 0, 0, 4, 1] := by decide

/-- AR8: 3 - 5 is 14: the accumulator is the minuend. -/
theorem test_sub_order : line (coreStep (withData [4, 3, 0] 3 5)) = some [4, 3, 14, 0, 4, 0x30, 5, 0, 0, 4, 1] := by decide

/-- CP3: CMP clears a Z that was set, and keeps ACC. -/
theorem test_cmp_clears :
    line (coreStep { machine 256 6 [8, 3, 1] 6 2 true with
      core := { (machine 256 6 [8, 3, 1] 6 2 true).core with mem := [(6, 8), (7, 3), (8, 1), (0x31, 3)] } }) =
    some [4, 9, 2, 0, 8, 0x31, 3, 0, 0, 4, 1] := by decide

/-- CP5: only equality is recorded. -/
theorem test_cmp_unequal : line (coreStep (withData [8, 3, 1] 15 0)) = some [4, 3, 15, 0, 8, 0x31, 0, 0, 0, 4, 1] := by decide

/-- CT2: a jump in the last three cells completes. -/
theorem test_jmp_end : line (coreStep (machine 256 0xFD [5, 1, 0] 0xFD 0 false)) =
    some [3, 0x10, 0, 0, 5, 0xFF, 0, 0, 0, 3, 1] := by decide

/-- CT3: the second operand cell is at 0x100. -/
theorem test_jmp_operand : err (coreStep (machine 256 0xFE [5, 1] 0xFE 0 false)) = some (2, 0x100, 5) := by decide

/-- CT5: JZ taken. -/
theorem test_jz_taken : line (coreStep (machine 256 5 [6, 0, 0xB] 5 0 true)) = some [3, 0xB, 0, 1, 6, 7, 11, 0, 0, 3, 1] := by decide

/-- ER7: a JZ that is not taken does not check its target. -/
theorem test_jz_unchecked : line (coreStep (machine 128 0 [6, 9, 0] 0 0 false)) = some [3, 3, 0, 0, 6, 2, 0, 0, 0, 3, 1] := by decide

/-- CT10: HLT advances the PC and is counted. -/
theorem test_hlt : line (coreStep (machine 256 8 [0] 8 5 false)) = some [1, 9, 5, 0, 0, 8, 0, 1, 0, 1, 1] := by decide

/-- CT11: HLT in the last cell is an error step. -/
theorem test_hlt_end : line (coreStep (machine 256 0xFF [0] 0xFF 5 false)) = some [0, 0xFF, 5, 0, 0, 0, 0, 1, 1, 0, 0] ∧
    err (coreStep (machine 256 0xFF [0] 0xFF 5 false)) = some (2, 0x100, 0) := by decide

/-- ER2: an illegal opcode in the last cell is InvalidOpcode. -/
theorem test_illegal_end : err (coreStep (machine 256 0xFF [0xF] 0xFF 0 false)) = some (1, 0xFF, 15) := by decide

/-- ER4, ER5, ER6: a jump, a read and a write at or beyond a `MEM_SIZE` of 128. -/
theorem test_bounds :
    err (coreStep (machine 128 0 [5, 9, 0] 0 0 false)) = some (2, 0x90, 5) ∧
    err (coreStep (machine 128 0 [1, 8, 0] 0 0 false)) = some (2, 0x80, 1) ∧
    err (coreStep (machine 128 0 [2, 0xF, 0xF] 0 3 false)) = some (2, 0xFF, 2) := by decide

/-- ER8, ER9, ER10: a load that does not fit, one that just fits, a start beyond memory. -/
theorem test_load :
    err (.next (loadProgram [1, 2, 3] 0xFE (machine 256 0 [] 0 0 false))) = some (2, 0x100, 0) ∧
    cellAfter (.next (loadProgram [1, 2, 3] 0xFE (machine 256 0 [] 0 0 false))) 0xFF = some 0 ∧
    cellAfter (.next (loadProgram [1, 2] 0xFE (machine 256 0 [] 0 0 false))) 0xFF = some 2 ∧
    err (.next (loadProgram [1] 200 (machine 128 0 [] 0 0 false))) = some (2, 0xC8, 0) := by decide

/-! ### The Gate Evaluation Engine (`95_test_vectors.md` section 3) -/

/-- How many passes a settle runs, whether it converges, and bit 0 of every wire. -/
def settled (cap : Nat) (c : Circuit) : Nat × Bool × List (Option Tri) :=
  let r := settlePasses cap c
  (r.count, r.converged, r.wires.map fun w => w.bits.head?)

/-- Scenario B: a = b = 1 gives c = 1 in two passes, then a = 0 gives c = 0; 1.4: a = 0 with b = X. -/
theorem test_scenario_b :
    settled 100 (scenarioB .one .one .zero) = (2, true, [some .one, some .one, some .one]) ∧
    settled 100 (scenarioB .zero .one .one) = (2, true, [some .zero, some .one, some .zero]) ∧
    settled 100 (scenarioB .zero .x .one) = (2, true, [some .zero, some .x, some .zero]) := by decide

/-- EG7: dependency order beats id order. -/
theorem test_order :
    (evalOrder [gate 0 .and [2, 1] [3], gate 1 .not [0] [2]]).map Gate.id = [1, 0] ∧
    (evalOrder [gate 0 .buf [2] [3], gate 1 .buf [1] [2], gate 2 .not [0] [1]]).map Gate.id = [2, 1, 0] := by decide

/-- EG1: `value[i]` is bit `i`. -/
theorem test_bit_index :
    ((setInputWire 0 [.one, .zero, .one, .one]
        (some (circuit [{ wire 0 .zero with width := 4, bits := [.zero, .zero, .zero, .zero] }, wire 1 .zero,
          { wire 2 .zero with width := 2, bits := [.zero, .zero] }]
          [{ gate 0 .and [] [1] with inputs := [⟨0, 0⟩, ⟨0, 3⟩] },
            { gate 1 .not [] [] with inputs := [⟨0, 1⟩], outputs := [⟨2, 1⟩] },
            { gate 2 .buf [] [2] with inputs := [⟨0, 2⟩] }]))).1.map fun c =>
      ((settlePasses 100 c).count, (settlePasses 100 c).wires.map Wire.bits)) =
    some (2, [[.one, .zero, .one, .one], [.one], [.one, .one]]) := by decide

/-- NC1 to NC4: an inverter that feeds itself, with the caps 5, 2 and 3, and from X. -/
theorem test_oscillator :
    settled 5 (oscillator .zero) = (5, false, [some .one]) ∧ settled 2 (oscillator .zero) = (2, false, [some .zero]) ∧
    settled 3 (oscillator .zero) = (3, false, [some .one]) ∧ settled 100 (oscillator .x) = (1, true, [some .x]) := by decide

/-- NC7: a latch made of a cycle settles as the order decides. -/
theorem test_latch :
    settled 100 (circuit [wire 0 .zero, wire 1 .zero, wire 2 .zero, wire 3 .zero, wire 4 .zero, wire 5 .zero]
      [gate 0 .or [1, 3] [4], gate 1 .not [4] [2], gate 2 .or [0, 2] [5], gate 3 .not [5] [3]]) =
    (2, true, [some .zero, some .zero, some .one, some .zero, some .zero, some .one]) := by decide

/-- 3.3, the shift chain's second edge: both DFFs sample before either is updated. -/
theorem test_shift_chain :
    ((clockEdge (some (circuit [wire 0 .zero, wire 1 .one, wire 2 .zero] [dff 0 .one 0 1, dff 1 .zero 1 2]))).1.map
      fun c => c.gates.map Gate.stored) = some [some .zero, some .one] := by decide

/-- 3.3, the toggle: settle, clock edge, settle. -/
theorem test_toggle :
    settled 100 toggle = (2, true, [some .zero, some .one]) ∧
    ((clockEdge (settle 100 (some toggle)).1).1.map fun c => settled 100 c) =
      some (2, true, [some .one, some .zero]) := by decide

/-! ### The Execution Controller (`95_test_vectors.md` section 4) -/

/-- 4.5: the breakpoint a run starts at is hit after one instruction. -/
theorem test_breakpoint_hit :
    eventTags (tick (running 5 [0] (machine 256 0 [5, 0, 0] 0 0 false))) = some [3, 0] ∧
    line (tick (running 5 [0] (machine 256 0 [5, 0, 0] 0 0 false))) = some [3, 0, 0, 0, 5, 2, 0, 0, 0, 3, 1] := by decide

/-- 4.7: a halt takes precedence over a breakpoint. -/
theorem test_halt_first :
    eventTags (tick (running 8 [5] (machine 256 0 [7, 1, 7, 2, 0] 0 0 false))) = some [1] ∧
    line (tick (running 8 [5] (machine 256 0 [7, 1, 7, 2, 0] 0 0 false))) = some [1, 5, 2, 0, 0, 4, 0, 1, 0, 5, 3] := by
  decide

/-- 4.3: a run that meets an illegal opcode reports ERROR. -/
theorem test_run_error :
    eventTags (tick (running 2 [] (machine 256 0 [9, 9, 2, 0, 0, 5, 0, 0] 5 9 false))) = some [2] := by decide

/-- 4.4: a load that does not fit reports ERROR(2, 0x100, 0). -/
theorem test_load_command :
    eventTags (command (.loadProgram [1, 2, 3] (some 0xFE)) (machine 256 0 [] 0 0 false)) = some [2] ∧
    err (command (.loadProgram [1, 2, 3] (some 0xFE)) (machine 256 0 [] 0 0 false)) = some (2, 0x100, 0) := by decide

/-! ### Witnesses: for every statement with hypotheses, states and operands that meet them -/

theorem witness_EncodeInvertsDecode : decode [2, 2, 0, 7] = .ok (.sta 0x20, [7]) := by decide

theorem witness_DecodeTableIsTotal : 0x9 ≤ (9 : Cell).toNat ∧ 0x9 ≤ (15 : Cell).toNat := by decide

/-- A machine with a STEP command pending, which the host lets the controller take. -/
def stepping (s : State) : State :=
  { s with inputs := [.takeCommand], controller := { s.controller with commands := [.step] } }

/-- An Idle machine at an LDI 5. -/
def atLdi : State := machine 256 0 [7, 5] 0 0 false

theorem witness_StepRunsDecodedInstruction :
    (stepping atLdi).core.halted = false ∧ decode (fetchCells (stepping atLdi)) = .ok (.ldi 5, [0]) ∧
    Taking .step [] [] (stepping atLdi) :=
  ⟨by decide, by decide, rfl, rfl⟩

/-- The step of that machine: LDI 5 is executed and one STATE_UPDATE emitted. -/
theorem test_step_command :
    line (step (stepping atLdi)) = some [2, 2, 5, 0, 7, 1, 5, 0, 0, 2, 1] ∧ eventTags (step (stepping atLdi)) = some [0] := by
  decide

/-- R160: without an input an Idle machine and a Running one stay as they are, power-up's too. -/
theorem test_no_input :
    nextState? (step atLdi) = some atLdi ∧ nextState? (step (running 2 [] atLdi)) = some (running 2 [] atLdi) ∧
    step State.reset = .next State.reset :=
  ⟨by decide, by decide, rfl⟩

/-- The instruction ends at the last cell of memory: its length just fits. -/
theorem witness_CellsAtPcAreExecuted :
    let s := machine 256 0xFE [7, 5] 0xFE 3 false
    s.core.halted = false ∧ s.core.pc.toNat + (Instr.ldi 5).length ≤ s.config.memSize ∧
      s.core.mem.read (s.core.pc.toNat + 0) = 7 ∧ s.core.mem.read (s.core.pc.toNat + 1) = 5 ∧
      encode (.ldi 5) = [7, 5] := by
  decide

theorem witness_HaltedStepChangesNothing : (done false atLdi).core.halted = true ∧ (done true atLdi).core.halted = true := by
  decide

/-- The least illegal opcode at 0, the greatest in the last cell. -/
theorem witness_IllegalOpcodeRaisesInvalidOpcode :
    (machine 256 0 [9] 0 0 false).core.halted = false ∧
    0x9 ≤ ((machine 256 0 [9] 0 0 false).core.mem.read 0).toNat ∧
    (machine 256 0xFF [15] 0xFF 0 false).core.pc.toNat < 256 ∧
    0x9 ≤ ((machine 256 0xFF [15] 0xFF 0 false).core.mem.read 0xFF).toNat := by decide

/-- The first operand cell missing, and the second. -/
theorem witness_MissingOperandCellRaisesAddressOutOfRange :
    (machine 256 0xFF [7] 0xFF 3 false).core.halted = false ∧
    lengthOf ((machine 256 0xFF [7] 0xFF 3 false).core.mem.read 0xFF) = some 2 ∧ 256 < 0xFF + 2 ∧
    lengthOf ((machine 256 0xFE [5, 1] 0xFE 0 false).core.mem.read 0xFE) = some 3 ∧ 256 < 0xFE + 3 := by decide

/-- LS11: the stored cell is the next opcode. -/
theorem witness_StoreIsSeenByNextFetch :
    let s := machine 256 0 [2, 0, 3, 15] 0 7 false
    ∃ t, s.core.mem.wf = true ∧ s.core.errored = false ∧ exec (.sta 3) s = .next t ∧ t.core.errored = false ∧
      t.core.pc.toNat + 0 = (3 : Addr).toNat :=
  ⟨_, by decide, by decide, rfl, by decide, by decide⟩

/-- Two machines that differ in the controller and the circuit only. -/
theorem witness_CoreStepDependsOnCoreAlone :
    let s' := { running 3 [1] atLdi with circuit := some toggle }
    ∃ t, atLdi.core = s'.core ∧ atLdi.config = s'.config ∧ s' ≠ atLdi ∧ coreStep atLdi = .next t :=
  ⟨_, rfl, rfl, by decide, rfl⟩

/-- A completed instruction and an error step. -/
theorem witness_InstructionIsAtomic :
    (∃ t, exec (.ldi 5) atLdi = .next t ∧ t.core.errored = false) ∧
    (∃ t, exec (.sta 0x20) (machine 256 0xFD [2, 2, 0] 0xFD 5 false) = .next t ∧ t.core.errored = true) :=
  ⟨⟨_, rfl, by decide⟩, ⟨_, rfl, by decide⟩⟩

/-- A core at address 5 with ACC 5, Z set, and 9 in cell 0x30. -/
def mid : State :=
  let s := machine 256 0x30 [9] 5 5 true
  s

/-- Every instruction completes there (CommitWritesIrMarMdr, CyclesFollowTheTable, ZeroFlagWriters, InstructionIsAtomic). -/
theorem witness_every_instruction_completes :
    mid.config.cycles = CycleTable.reference ∧ mid.core.errored = false ∧ mid.core.halted = false ∧
    [Instr.hlt, .lda 0x30, .sta 0x30, .add 0x30, .sub 0x30, .jmp 0x30, .jz 0x30, .ldi 3, .cmp 0x30].all (fun i =>
      match exec i mid with
      | .next t => !t.core.errored
      | _ => false) = true := by decide

/-- Every instruction ends in an error step in the last cell of memory. -/
theorem witness_every_instruction_errs :
    [Instr.hlt, .lda 0x30, .sta 0x30, .add 0x30, .sub 0x30, .jmp 0x30, .jz 0x30, .ldi 3, .cmp 0x30].all (fun i =>
      match exec i (machine 256 0xFF [] 0xFF 0 false) with
      | .next t => t.core.errored
      | _ => false) = true := by decide

theorem witness_ZeroFlagWriters_error :
    let s := machine 256 0 [9] 0 0 true
    ∃ t, s.core.errored = false ∧ coreStep s = .next t ∧ t.core.errored = true ∧ t.core.zf = true :=
  ⟨_, by decide, rfl, by decide, by decide⟩

/-- LdiRule: PC = FF, FE and FD; the next PC of the last is FF. -/
theorem witness_LdiRule :
    256 ≤ (0xFF : Addr).toNat + 1 ∧ ((0xFE : Addr).toNat + 1 < 256 ∧ 256 ≤ (0xFE : Addr).toNat + 2) ∧
    (0xFD : Addr).toNat + 2 < 256 ∧
    line (exec (.ldi 3) (machine 256 0 [] 0xFD 0 false)) = some [2, 0xFF, 3, 0, 7, 0xFE, 3, 0, 0, 2, 1] ∧
    err (exec (.ldi 3) (machine 256 0 [] 0xFE 0 false)) = some (2, 0x100, 7) ∧
    err (exec (.ldi 3) (machine 256 0 [] 0xFF 0 false)) = some (2, 0x100, 7) := by decide

/-- DataInstructionErrors and the completing clause of LDA, STA, ADD, SUB and CMP: with 128 cells PC = 7F, 7E, then a data
address of 0x80, then PC = 7D, then PC = 7C and data address 0x7F. -/
theorem witness_DataInstructions :
    [Instr.lda 0x7F, .sta 0x7F, .add 0x7F, .sub 0x7F, .cmp 0x7F].all (fun i =>
      err (exec i (machine 128 0 [] 0x7F 1 false)) == some (2, 0x80, (opcodeOf i).toNat) &&
      err (exec i (machine 128 0 [] 0x7E 1 false)) == some (2, 0x80, (opcodeOf i).toNat) &&
      err (exec i (machine 128 0 [] 0x7D 1 false)) == some (2, 0x80, (opcodeOf i).toNat) &&
      err (exec i (machine 128 0 [] 0x7C 1 false)) == some (0, 0, 0)) = true ∧
    [Instr.lda 0x81, .sta 0x81, .add 0x81, .sub 0x81, .cmp 0x81].all (fun i =>
      err (exec i (machine 128 0 [] 0x7D 1 false)) == some (2, 0x81, (opcodeOf i).toNat)) = true := by decide

/-- AddRule and SubRule: the result cell that the arithmetic of integers names, with and without a wrap. -/
theorem witness_AddRule_SubRule :
    ((0 : Cell).toNat = ((15 : Cell).toNat + (1 : Cell).toNat) % 16) ∧
    ((15 : Cell).toNat = ((7 : Cell).toNat + (8 : Cell).toNat) % 16) ∧
    (((15 : Cell).toNat : Int) = (((0 : Cell).toNat : Int) - (1 : Cell).toNat) % 16) ∧
    (((0 : Cell).toNat : Int) = (((5 : Cell).toNat : Int) - (5 : Cell).toNat) % 16) := by decide

/-- JmpRule: PC = 7F, 7E, 7D with a target of 0x80 and of 0x7F, with 128 cells. -/
theorem witness_JmpRule :
    err (exec (.jmp 0x7F) (machine 128 0 [] 0x7F 0 false)) = some (2, 0x80, 5) ∧
    err (exec (.jmp 0x7F) (machine 128 0 [] 0x7E 0 false)) = some (2, 0x80, 5) ∧
    err (exec (.jmp 0x80) (machine 128 0 [] 0x7D 0 false)) = some (2, 0x80, 5) ∧
    line (exec (.jmp 0x7F) (machine 128 0 [] 0x7D 0 false)) = some [3, 0x7F, 0, 0, 5, 0x7F, 15, 0, 0, 3, 1] := by decide

/-- JzRule: the operand cells, the target when Z = 1, the next address when Z = 0, each on both sides of its bound. -/
theorem witness_JzRule :
    err (exec (.jz 0x7F) (machine 128 0 [] 0x7F 0 true)) = some (2, 0x80, 6) ∧
    err (exec (.jz 0x7F) (machine 128 0 [] 0x7E 0 true)) = some (2, 0x80, 6) ∧
    err (exec (.jz 0x80) (machine 128 0 [] 0x7D 0 true)) = some (2, 0x80, 6) ∧
    err (exec (.jz 0x7F) (machine 128 0 [] 0x7D 0 false)) = some (2, 0x80, 6) ∧
    line (exec (.jz 0x7F) (machine 128 0 [] 0x7D 0 true)) = some [3, 0x7F, 0, 1, 6, 0x7F, 15, 0, 0, 3, 1] ∧
    line (exec (.jz 0x80) (machine 128 0 [] 0x7C 0 false)) = some [3, 0x7F, 0, 0, 6, 0x7E, 0, 0, 0, 3, 1] := by decide

/-- HltRule: the last cell and the cell before it. -/
theorem witness_HltRule :
    err (exec .hlt (machine 256 0 [] 0xFF 0 false)) = some (2, 0x100, 0) ∧
    line (exec .hlt (machine 256 0 [] 0xFE 0 false)) = some [1, 0xFF, 0, 0, 0, 0xFE, 0, 1, 0, 1, 1] := by decide

/-- StaFrame: a store that completes, one that ends in an error; an address beside the stored one. -/
theorem witness_StaFrame :
    ∃ t u, mid.core.mem.wf = true ∧ mid.core.errored = false ∧ exec (.sta 0x20) mid = .next t ∧ t.core.errored = false ∧
      exec (.sta 0x20) (machine 128 0 [] 0x7D 1 false) = .next u ∧ u.core.errored = true ∧ 0x21 ≠ (0x20 : Addr).toNat :=
  ⟨_, _, by decide, by decide, rfl, by decide, rfl, by decide, by decide⟩

/-- NonStoringFrame: an instruction that is no STA. -/
theorem witness_NonStoringFrame :
    ∃ t, (∀ a, Instr.cmp 0x30 ≠ .sta a) ∧ mid.core.errored = false ∧ exec (.cmp 0x30) mid = .next t ∧ t.core.errored = false :=
  ⟨_, by decide, by decide, rfl, by decide⟩

/-- OnlyHltHaltsWithoutError: HLT, another instruction, and an error step. -/
theorem witness_OnlyHltHaltsWithoutError :
    ∃ t u v, mid.core.halted = false ∧ mid.core.errored = false ∧ exec .hlt mid = .next t ∧ t.core.errored = false ∧
      exec (.ldi 3) mid = .next u ∧ u.core.errored = false ∧
      exec (.ldi 3) (machine 256 0 [] 0xFF 0 false) = .next v ∧ v.core.errored = true :=
  ⟨_, _, _, by decide, by decide, rfl, by decide, rfl, by decide, rfl, by decide⟩

/-- CoreResetZeroesEverything: a machine that clears memory and one that keeps it. -/
theorem witness_CoreResetZeroesEverything :
    atLdi.config.resetClearsMemory = true ∧ { config 256 100 with resetClearsMemory := false }.resetClearsMemory = false ∧
    atLdi.core.mem.read 0 = 7 := by decide

theorem witness_ClearedCellHaltsAtOnce :
    let s := machine 256 0 [] 0xFE 3 false
    s.config.wellFormed = true ∧ s.core.halted = false ∧ s.core.pc.toNat + 1 < s.config.memSize ∧
      s.core.mem.read s.core.pc.toNat = 0 := by decide

/-- LoadProgramWritesAllOrNothing: ER8 and ER9, the two sides of the bound. -/
theorem witness_LoadProgramWritesAllOrNothing :
    atLdi.core.mem.wf = true ∧ atLdi.config.memSize ≤ 256 ∧ 256 < (0xFE : Addr).toNat + [(1 : Cell), 2, 3].length ∧
    (0xFE : Addr).toNat + [(1 : Cell), 2].length ≤ 256 ∧ [(1 : Cell), 2][1]? = some 2 := by decide

/-- A legal state with a program, a breakpoint and a settled circuit. -/
def legal : State :=
  let s := machine 256 0 [7, 5] 0 3 false
  { s with
    circuit := (settle 100 (some toggle)).1
    controller := { s.controller with breakpoints := [1, 5], commands := [.reset] } }

theorem witness_LegalStatesAreKept : Legal legal ∧ (∃ c, legal.circuit = some c ∧ c.stable = true) :=
  ⟨{ core := ⟨by decide, by decide, by decide, by decide, by decide, by decide⟩
     controller := ⟨by decide, by decide, by decide, by decide⟩
     engine := ⟨fun c h => by cases h; decide, fun c h _ => by cases h; decide⟩ }, _, rfl, by decide⟩

/-- The same state, Running, whose next step is a tick. -/
theorem witness_LegalStatesAreKept_running :
    Legal { running 2 [1, 5] legal with inputs := [.tick] } ∧
    ∃ t, step { running 2 [1, 5] legal with inputs := [.tick] } = .next t :=
  ⟨{ core := ⟨by decide, by decide, by decide, by decide, by decide, by decide⟩
     controller := ⟨by decide, by decide, by decide, by decide⟩
     engine := ⟨fun c h => by cases h; decide, fun c h _ => by cases h; decide⟩ }, _, rfl⟩

/-- HaltIsTerminalUntilReset: a halted core whose controller takes STEP, and one whose controller takes RESET. -/
theorem witness_HaltIsTerminalUntilReset :
    ∃ t u, Legal (stepping (done false legal)) ∧ (stepping (done false legal)).core.halted = true ∧
      step (stepping (done false legal)) = .next t ∧
      step { done false legal with inputs := [.takeCommand] } = .next u ∧ u.core.halted = false :=
  ⟨_, _, { core := ⟨by decide, by decide, by decide, by decide, by decide, by decide⟩
           controller := ⟨by decide, by decide, by decide, by decide⟩
           engine := ⟨fun c h => by cases h; decide, fun c h _ => by cases h; decide⟩ }, rfl, rfl, rfl, by decide⟩

/-- ReportFitsStatus (and every rule that needs room for one or two events): the three statuses. -/
theorem witness_ReportFitsStatus :
    RoomFor 1 atLdi ∧ RoomFor 2 atLdi ∧ (done true atLdi).core.errored = true ∧
    ((done false atLdi).core.errored = false ∧ (done false atLdi).core.halted = true) ∧
    (atLdi.core.errored = false ∧ atLdi.core.halted = false) := by
  unfold RoomFor; decide

/-- LoadProgramCommandRule: a payload that just fits and one that does not, at the address 0 of an absent start; an empty
payload at the end of memory. -/
theorem witness_LoadProgramCommandRule :
    ((some 2 : Option Addr).getD 0).toNat ≤ 2 ∧ (machine 2 0 [] 0 0 false).config.resetClearsMemory = true ∧
    RoomFor 1 (machine 2 0 [] 0 0 false) ∧ ((none : Option Addr).getD 0).toNat + [(1 : Cell), 2].length ≤ 2 ∧
    2 < ((none : Option Addr).getD 0).toNat + [(1 : Cell), 2, 3].length ∧
    eventTags (command (.loadProgram [1, 2] none) (machine 2 0 [] 0 0 false)) = some [0] ∧
    eventTags (command (.loadProgram [1, 2, 3] none) (machine 2 0 [] 0 0 false)) = some [2] := by
  unfold RoomFor; decide

/-- StepCommandRule: while Running, a step that halts and one that does not. -/
theorem witness_StepCommandRule :
    ∃ t u, RoomFor 1 (running 2 [] atLdi) ∧ coreStep (running 2 [] atLdi) = .next t ∧ t.core.halted = false ∧
      coreStep (running 2 [] (machine 256 0 [] 0 0 false)) = .next u ∧ u.core.halted = true :=
  ⟨_, _, by unfold RoomFor; decide, rfl, by decide, rfl, by decide⟩

/-- RunAndSetSpeedCommandRules, StopAndGetStateCommandRules, ResetCommandRule, BreakpointCommandRules. -/
theorem witness_CommandRules :
    (running 2 [] atLdi).controller.running = true ∧ atLdi.controller.running = false ∧
    (done false atLdi).core.halted = true ∧ risingAddrs legal.controller.breakpoints = true ∧
    1 ∈ legal.controller.breakpoints ∧ 3 ∉ legal.controller.breakpoints ∧ RoomFor 1 legal := by
  unfold RoomFor; decide

/-- A one-instruction loop at 0, Running, two instructions per tick. -/
def looping (bps : List Addr) : State := running 2 bps (machine 256 0 [5, 0, 0] 0 0 false)

theorem witness_UninterruptedTickRunsWholeBatch :
    atLdi.controller.running = false ∧
    ∃ t, (looping []).controller.running = true ∧ RoomFor 1 (looping []) ∧ (looping []).controller.speed = 2 ∧
      coreSteps 2 (looping []) = some t ∧
      ∀ k u, 0 < k → k ≤ 2 → coreSteps k (looping []) = some u →
        u.core.halted = false ∧ u.core.pc ∉ (looping []).controller.breakpoints := by
  refine ⟨by decide, _, rfl, by unfold RoomFor; decide, rfl, rfl, ?_⟩
  intro k u h0 h2 h
  obtain rfl | rfl : k = 1 ∨ k = 2 := by omega
  all_goals
    cases h
    decide

/-- The HLT at 2 is reached by the second instruction, although its next address 3 is a breakpoint. -/
theorem witness_HaltEndsTheRun :
    let s := running 2 [3] (machine 256 0 [7, 5] 0 0 false)
    ∃ t, s.controller.running = true ∧ s.controller.speed = 2 ∧ coreSteps 2 s = some t ∧ t.core.halted = true ∧
      t.core.pc ∈ s.controller.breakpoints ∧
      ∀ j u, 0 < j → j < 2 → coreSteps j s = some u → u.core.halted = false ∧ u.core.pc ∉ s.controller.breakpoints := by
  refine ⟨_, rfl, rfl, rfl, by decide, by decide, ?_⟩
  intro j u h0 h2 h
  obtain rfl : j = 1 := by omega
  cases h
  decide

/-- The breakpoint at 4 is reached by the second instruction, the last one of the tick. -/
theorem witness_BreakpointEndsTheRun :
    let s := running 2 [4] (machine 256 0 [7, 5, 7, 6] 0 0 false)
    ∃ t, s.controller.running = true ∧ RoomFor 2 s ∧ s.controller.speed = 2 ∧ coreSteps 2 s = some t ∧
      t.core.halted = false ∧ t.core.pc ∈ s.controller.breakpoints ∧
      ∀ j u, 0 < j → j < 2 → coreSteps j s = some u → u.core.halted = false ∧ u.core.pc ∉ s.controller.breakpoints := by
  refine ⟨_, rfl, by unfold RoomFor; decide, rfl, rfl, by decide, by decide, ?_⟩
  intro j u h0 h2 h
  obtain rfl : j = 1 := by omega
  cases h
  decide

/-- ChannelsAreBoundedFifos: channels of two with one entry, and full ones; a step for every kind of input, and for none. -/
theorem witness_ChannelsAreBoundedFifos :
    legal.inputs = [] ∧ legal.controller.commands = [.reset] ∧
    legal.controller.commands.length < legal.config.cmdFifoDepth ∧
    atLdi.controller.commands = [] ∧ RoomFor 1 (withEvents [.ready] atLdi) ∧
    (withEvents [.ready, .ready] atLdi).controller.events.length = atLdi.config.evtFifoDepth ∧
    [Command.stop, .step].length = atLdi.config.cmdFifoDepth := by
  unfold RoomFor; decide

/-- A tick that the host fires and an engine operation that it calls reach the controller and the engine. -/
theorem test_inputs :
    line (step { looping [] with inputs := [.tick] }) = some [3, 0, 0, 0, 5, 2, 0, 0, 0, 6, 2] ∧
    (nextState? (step { legal with inputs := [.engine (.getWire 1)] })).map State.engineResult =
      some (some (.wire (wire 1 .one))) := by decide

/-- EmittedEventsNeverChange: a step that emits and one that receives. -/
theorem witness_EmittedEventsNeverChange :
    let s := { withEvents [.ready] legal with inputs := [.takeCommand] }
    let r := { withEvents [.ready] legal with inputs := [.receiveEvent] }
    ∃ t u, step s = .next t ∧ s.inputs.head? ≠ some .receiveEvent ∧ t.controller.events.length = 2 ∧
      step r = .next u ∧ r.inputs.head? = some .receiveEvent :=
  ⟨_, _, rfl, by decide, by decide, rfl, by decide⟩

/-- ThreeValuedTables: a BUF and a NOT, each with one input. -/
theorem witness_ThreeValuedTables :
    (gate 0 .buf [1] [0]).inputs = [port 1] ∧ (gate 0 .buf [1] [0]).type = .buf ∧
    (gate 0 .not [1] [0]).inputs = [port 1] ∧ (gate 0 .not [1] [0]).type = .not := by decide

/-- InputOrderDoesNotMatter: inputs in two orders. -/
theorem witness_InputOrderDoesNotMatter :
    (gate 0 .and [0, 1, 2] [3]).inputs.Perm (gate 0 .and [2, 0, 1] [3]).inputs ∧
    (gate 0 .and [0, 1, 2] [3]).inputs ≠ (gate 0 .and [2, 0, 1] [3]).inputs := by decide

/-- LoadCircuitAndGetWireRules and SetInputWireRule: circuits of both kinds, the last wire and the id after it, a value of the
wire's width and one of another. -/
theorem witness_LoadCircuitAndWireRules :
    toggle.wellFormed = true ∧ (circuit [wire 1 .zero] []).wellFormed = false ∧ toggle.wires[1]? = some (wire 1 .zero) ∧
    toggle.wires[2]? = none ∧ [Tri.x].length = (wire 1 .zero).width ∧ [Tri.x, .x].length ≠ (wire 1 .zero).width := by decide

/-- SettleRule, first clause: the last pass that the cap 2 allows changes nothing. -/
theorem witness_SettleRule_converges :
    let c := scenarioB .one .one .zero
    let w := driveDffs c.gates c.wires
    1 < 2 ∧ (pass (evalOrder c.gates) (afterPasses (evalOrder c.gates) 1 w)).2 = false ∧
      ∀ k, k < 1 → (pass (evalOrder c.gates) (afterPasses (evalOrder c.gates) k w)).2 = true := by decide

/-- SettleRule, second clause: every one of the two passes changes a bit. -/
theorem witness_SettleRule_cap :
    let c := oscillator .zero
    ∀ k, k < 2 → (pass (evalOrder c.gates) (afterPasses (evalOrder c.gates) k (driveDffs c.gates c.wires))).2 = true := by
  decide

/-- Two gates in a chain, the later one first (EG7). -/
def chain : Circuit :=
  circuit [wire 0 .zero, wire 1 .one, wire 2 .zero, wire 3 .zero] [gate 0 .and [2, 1] [3], gate 1 .not [0] [2]]

/-- EvaluationOrderRule: a gate that waits for no gate left (the chain), and gates that all wait (the oscillator); an order
split after its first gate; an operation that is no `loadCircuit`. -/
theorem witness_EvaluationOrderRule :
    chain.wellFormed = true ∧ Acyclic chain.gates ∧
    evalOrder chain.gates = [gate 1 .not [0] [2]] ++ gate 0 .and [2, 1] [3] :: [] ∧
    Ready [gate 0 .and [2, 1] [3]] (gate 0 .and [2, 1] [3]) ∧
    (oscillator .zero).wellFormed = true ∧ evalOrder (oscillator .zero).gates = [] ++ gate 0 .not [0] [0] :: [] ∧
    (∀ f ∈ [gate 0 .not [0] [0]], ¬ Ready [gate 0 .not [0] [0]] f) ∧
    (∀ n, EngineOp.clockEdge ≠ .loadCircuit n) ∧
    ∃ c' r, engineOp 2 .clockEdge (some toggle) = (some c', r) := by
  refine ⟨by decide, ⟨fun g => 1 - g.id, by decide⟩, by decide, by unfold Ready; decide, by decide, by decide,
    by unfold Ready; decide, (fun _ h => by cases h), _, _, rfl⟩

/-- SettledCircuitIsConsistent, DFF clause: the DFF of the toggle is the only gate that drives wire 0. -/
theorem witness_SettledCircuitIsConsistent :
    toggle.wellFormed = true ∧ dff 1 .zero 1 0 ∈ toggle.gates ∧ (dff 1 .zero 1 0).isDff = true ∧
    port 0 ∈ (dff 1 .zero 1 0).outputs ∧ (∀ h ∈ toggle.gates, port 0 ∈ h.outputs → h = dff 1 .zero 1 0) ∧
    ∃ c', engineOp 100 .settle (some toggle) = (some c', .settled c') :=
  ⟨by decide, by decide, by decide, by decide, by decide, _, rfl⟩

/-- SettledCircuitIsConsistent, SettleIsIdempotent, StoredChangesOnlyAtClockEdge: a settle of the toggle that converges. -/
theorem witness_SettleIsIdempotent :
    ∃ c', toggle.wellFormed = true ∧ DffBitsOwn toggle.gates ∧
      engineOp 100 .settle (some toggle) = (some c', .settled c') ∧ EngineOp.settle ≠ .clockEdge :=
  ⟨_, by decide, by unfold DffBitsOwn; decide, rfl, by decide⟩

theorem witness_AcyclicCircuitSettlesInTwoPasses :
    chain.wellFormed = true ∧ Acyclic chain.gates ∧ SingleDriver chain.gates :=
  ⟨by decide, ⟨fun g => 1 - g.id, by decide⟩, by unfold SingleDriver; decide⟩

/-- AcyclicFixpointIsUnique: the settled bits of the chain. -/
theorem witness_AcyclicFixpointIsUnique :
    Acyclic chain.gates ∧
    ∀ g ∈ combinational chain.gates, ∀ p ∈ g.outputs,
      readPort (settlePasses 2 chain).wires p = g.value (settlePasses 2 chain).wires :=
  ⟨⟨fun g => 1 - g.id, by decide⟩, by decide⟩

/-- UndrivenBitIsKept: wires 0 and 1 of the chain are driven by no gate. -/
theorem witness_UndrivenBitIsKept :
    (∀ g ∈ chain.gates, port 1 ∉ g.outputs) ∧ ∃ c' r, engineOp 2 .settle (some chain) = (some c', r) :=
  ⟨by decide, _, _, rfl⟩

/-- ClockEdgeRule: a combinational gate and a DFF with its D input. -/
theorem witness_ClockEdgeRule :
    toggle.gates[0]? = some (gate 0 .not [0] [1]) ∧ (gate 0 .not [0] [1]).isDff = false ∧
    toggle.gates[1]? = some (dff 1 .zero 1 0) ∧ (dff 1 .zero 1 0).isDff = true ∧
    (dff 1 .zero 1 0).inputs.head? = some (port 1) := by decide

/-- BlocksAreIndependent: a step that is an engine operation and one that is not. -/
theorem witness_BlocksAreIndependent :
    ∃ t u, step { legal with inputs := [.engine .clockEdge] } = .next t ∧ t.circuit ≠ legal.circuit ∧
      step (stepping legal) = .next u ∧ u.core ≠ legal.core ∧ ∀ op, (stepping legal).inputs.head? ≠ some (.engine op) :=
  ⟨_, _, rfl, by decide, rfl, by decide, fun _ h => by cases h⟩

end Sys2Proof.Tests
end

section
/-!
The step of the whole machine on each input of the host, and the channels between the host and the controller
(`45_controller.md` R160 to R163).
-/

namespace Sys2Proof.Machine

open Sys2Proof.Safety

/-! What a step does with the host's next input. -/

/-- The hardware does nothing on its own (`45_controller.md` R160; log 2). -/
theorem step_of_no_input {s : State} (h : s.inputs = []) : step s = .next s := by
  simp only [step, turn, h]

/-- A step consumes the host's next input and does what it asks for (`00_scope.md` R2). -/
theorem step_of_input {s : State} {i : Input} {rest : List Input} (h : s.inputs = i :: rest) :
    step s = input i { s with inputs := rest } := by
  simp only [step, turn, h]

/-! The two ends of the command channel, and the full event channel. -/

/-- A command sent while the channel has room enters it last (`45_controller.md` R161). -/
theorem sendCommand_of_room {s : State} (c : Command) (h : s.controller.commands.length < s.config.cmdFifoDepth) :
    sendCommand c s =
      .next { s with controller := { s.controller with commands := s.controller.commands ++ [c] } } :=
  if_pos h

/-- A full command channel refuses under a name of the model's own (`93_implementation_defined.md` U9, log 9). -/
theorem sendCommand_of_full {s : State} (c : Command) (h : s.controller.commands.length = s.config.cmdFifoDepth) :
    sendCommand c s = .refused .commandChannelFull :=
  if_neg h.not_lt

/-- With no command pending the controller does nothing (`45_controller.md` R160; log 2). -/
theorem takeCommand_of_nil {s : State} (h : s.controller.commands = []) : takeCommand s = .next s := by
  simp only [takeCommand, h]

/-- The controller takes the oldest pending command out of the channel and processes it (`45_controller.md` R161, R162). -/
theorem takeCommand_of_cons {s : State} {c : Command} {cs : List Command} (h : s.controller.commands = c :: cs) :
    takeCommand s = command c { s with controller := { s.controller with commands := cs } } := by
  simp only [takeCommand, h]

/-- A full event channel refuses under a name of the model's own (`93_implementation_defined.md` U9, log 9). -/
theorem emit_of_full {s : State} (e : Event) (h : s.controller.events.length = s.config.evtFifoDepth) :
    emit e s = .refused .eventChannelFull :=
  if_neg h.not_lt

/-- Settles O43: the step is the effect of the next input, and each input's effect is one rule of the channel, of the tick or
of the engine. -/
theorem channelsAreBoundedFifos : Obligations.ChannelsAreBoundedFifos := by
  refine ⟨?noInput, ?tick, ?engine, ?send, ?take, ?noCommand, ?emit, ?receive, ?eventsFull, ?commandsFull⟩
  case noInput => exact fun _ => step_of_no_input
  case tick => exact fun _ _ h => step_of_input h
  case engine => exact fun _ _ _ h => step_of_input h
  case send => exact fun _ c _ h hroom => (step_of_input h).trans (sendCommand_of_room c hroom)
  case take => exact fun _ _ _ _ h hc => (step_of_input h).trans (takeCommand_of_cons hc)
  case noCommand => exact fun _ _ h hc => (step_of_input h).trans (takeCommand_of_nil hc)
  case emit => exact fun e _ => emit_of_room e
  case receive => exact fun _ _ h => step_of_input h
  case eventsFull => exact fun e _ => emit_of_full e
  case commandsFull => exact fun c _ => sendCommand_of_full c

end Sys2Proof.Machine
end

section
/-!
The legal states of the whole machine (`10_state.md` R19, R26, R28, `45_controller.md` R180): what each part of a step keeps of
them, and that no step from one of them faults.
-/

namespace Sys2Proof.Machine

open Sys2Proof.Safety

/-! What an engine operation does to the circuit (`44_gate_engine.md` R140 to R145). -/

/-- Everything an engine operation can leave: the circuit as it was, the one loaded, or the one before with a wire set, settled or
clocked. -/
theorem engineOp_cases {cap : Nat} {op : EngineOp} {e : Option Circuit} {c' : Circuit}
    (h : (engineOp cap op e).1 = some c') :
    e = some c' ∨
    (∃ n, op = .loadCircuit n ∧ n.wellFormed = true ∧ c' = { n with stable := false }) ∨
    (∃ c id v w, e = some c ∧ op = .setInputWire id v ∧ c.wires[id]? = some w ∧ v.length = w.width ∧
      c' = { c with wires := c.wires.set id { w with bits := v }, stable := false }) ∨
    (∃ c, e = some c ∧ op = .settle ∧
      c' = { c with wires := (settlePasses cap c).wires, stable := (settlePasses cap c).converged }) ∨
    (∃ c, e = some c ∧ op = .clockEdge ∧
      c' = { c with gates := c.gates.map (Gate.clocked c.wires), cycle := c.cycle + 1, stable := false }) := by
  cases op with
  | loadCircuit n =>
    simp only [engineOp, loadCircuit] at h
    split_ifs at h with hn
    · cases h; exact .inr (.inl ⟨n, rfl, hn, rfl⟩)
    · exact .inl h
  | setInputWire id v =>
    cases e with
    | none => cases h
    | some c =>
      simp only [engineOp, setInputWire] at h
      split at h
      · exact .inl h
      · split_ifs at h with hv
        · cases h; exact .inr (.inr (.inl ⟨c, id, v, _, rfl, rfl, by assumption, hv, rfl⟩))
        · exact .inl h
  | settle =>
    cases e with
    | none => cases h
    | some c => cases h; exact .inr (.inr (.inr (.inl ⟨c, rfl, rfl, rfl⟩)))
  | clockEdge =>
    cases e with
    | none => cases h
    | some c => cases h; exact .inr (.inr (.inr (.inr ⟨c, rfl, rfl, rfl⟩)))
  | getWire id =>
    cases e with
    | none => cases h
    | some c =>
      simp only [engineOp, getWire] at h
      split at h <;> exact .inl h

/-- Settles O57: of what an engine operation can leave, only a loaded and a clocked circuit have other gates or another cycle
than the one before. -/
theorem storedChangesOnlyAtClockEdge : Obligations.StoredChangesOnlyAtClockEdge := by
  intro cap op c c' r hclock hload h
  rcases engineOp_cases (congrArg Prod.fst h) with
    hsame | ⟨n, hop, _⟩ | ⟨_, _, _, _, hc, _, _, _, rfl⟩ | ⟨_, hc, _, rfl⟩ | ⟨_, _, hop, _⟩
  · cases hsame; exact ⟨rfl, rfl⟩
  · exact absurd hop (hload n)
  · cases hc; exact ⟨rfl, rfl⟩
  · cases hc; exact ⟨rfl, rfl⟩
  · exact absurd hop hclock

/-! What an engine operation keeps of a legal circuit (`10_state.md` R26, R28). -/

/-- A wire of a well-formed circuit has as many bits as its width (`10_state.md` R26). -/
theorem bits_length_of_wellFormed {c : Circuit} (h : c.wellFormed = true) {k : Nat} {w : Wire}
    (hw : c.wires[k]? = some w) : w.bits.length = w.width := by
  simp only [Circuit.wellFormed, Bool.and_eq_true, List.all_eq_true] at h
  obtain ⟨⟨_, hwires⟩, _⟩ := h
  have := hwires w (List.mem_of_getElem? hw)
  simp only [Wire.wellFormed, Bool.and_eq_true, beq_iff_eq] at this
  exact this.2

/-- Replacing the bits of one wire by as many others keeps the shape. -/
theorem sameShape_set {ws : List Wire} {k : Nat} {w : Wire} {v : List Tri} (hw : ws[k]? = some w)
    (hv : v.length = w.bits.length) : SameShape ws (ws.set k { w with bits := v }) := by
  refine ⟨List.length_set, fun j a ha => ?_⟩
  by_cases hkj : k = j
  · subst hkj
    obtain rfl : w = a := Option.some.inj (hw.symm.trans ha)
    exact ⟨v, List.getElem?_set_self (List.getElem?_eq_some_iff.mp hw).1, hv⟩
  · exact ⟨a.bits, by rw [List.getElem?_set_ne hkj]; exact ha, rfl⟩

/-- A settle keeps the shape of the wires (`44_gate_engine.md` R142). -/
theorem sameShape_settlePasses (cap : Nat) (c : Circuit) : SameShape c.wires (settlePasses cap c).wires :=
  settlePasses_keeps (P := SameShape c.wires) (fun w _ _ p _ v hw => hw.trans (sameShape_writePort w p v))
    (SameShape.refl _)

/-- A settle that converges stops at a fixpoint (`10_state.md` R28, `44_gate_engine.md` R142). -/
theorem atFixpoint_of_settlePasses_converged {cap : Nat} {c : Circuit} {b : Bool}
    (h : (settlePasses cap c).converged = true) :
    atFixpoint { c with wires := (settlePasses cap c).wires, stable := b } = true := by
  have : (pass (evalOrder c.gates) (settlePasses cap c).wires).2 = false := runPasses_converged h
  simp [atFixpoint, this]

/-- An engine operation keeps the engine legal. -/
theorem legalEngine_applyEngine {s : State} (hl : LegalEngine s) (op : EngineOp) : LegalEngine (applyEngine op s) := by
  have key (c' : Circuit) (h : (applyEngine op s).circuit = some c') :
      c'.wellFormed = true ∧ (c'.stable = true → atFixpoint c' = true) := by
    rcases engineOp_cases h with
      hsame | ⟨n, _, hn, rfl⟩ | ⟨c, _, v, w, hc, _, hw, hv, rfl⟩ | ⟨c, hc, _, rfl⟩ | ⟨c, hc, _, rfl⟩
    · exact ⟨hl.circuitWellFormed _ hsame, hl.stableIsFixpoint _ hsame⟩
    · exact ⟨hn, nofun⟩
    · have hwf := hl.circuitWellFormed _ hc
      have hbits := hv.trans (bits_length_of_wellFormed hwf hw).symm
      exact ⟨wellFormed_of_sameShape hwf (sameShape_set hw hbits) false, nofun⟩
    · exact ⟨wellFormed_of_sameShape (hl.circuitWellFormed _ hc) (sameShape_settlePasses _ c) _,
        atFixpoint_of_settlePasses_converged⟩
    · exact ⟨wellFormed_of_clocked (hl.circuitWellFormed _ hc) _ false, nofun⟩
  exact ⟨fun c hc => (key c hc).1, fun c hc => (key c hc).2⟩

/-! What the operations of the controller keep of a legal state. -/

/-- The inputs that wait are no part of legality. -/
theorem legal_of_inputs {s : State} (hl : Legal s) (ins : List Input) : Legal { s with inputs := ins } :=
  ⟨legalCore_congr hl.core rfl rfl,
    ⟨hl.controller.runningReady, hl.controller.breakpointsRising, hl.controller.commandsFit, hl.controller.eventsFit⟩,
    ⟨hl.engine.circuitWellFormed, hl.engine.stableIsFixpoint⟩⟩

/-- A legal controller beside a legal core and engine. -/
theorem legal_of_controller {s : State} (hl : Legal s) {k : Controller}
    (hk : LegalController { s with controller := k }) : Legal { s with controller := k } :=
  ⟨legalCore_congr hl.core rfl rfl, hk, ⟨hl.engine.circuitWellFormed, hl.engine.stableIsFixpoint⟩⟩

/-- A legal core beside the engine and the controller of a legal state, with a running bit that fits the new core
(`45_controller.md` R180). -/
theorem legal_of_core {s t : State} (hl : Legal s) (hcore : LegalCore t) (hconfig : t.config = s.config)
    (hcircuit : t.circuit = s.circuit) {b : Bool} (hcontroller : t.controller = { s.controller with running := b })
    (hb : b = true → t.core.halted = false) : Legal t := by
  refine ⟨hcore, ⟨?_, ?_, ?_, ?_⟩, ⟨?_, ?_⟩⟩
  · simpa [hcontroller] using hb
  · simpa [hcontroller] using hl.controller.breakpointsRising
  · simpa [hcontroller, hconfig] using hl.controller.commandsFit
  · simpa [hcontroller, hconfig] using hl.controller.eventsFit
  · simpa [hcircuit] using hl.engine.circuitWellFormed
  · simpa [hcircuit] using hl.engine.stableIsFixpoint

/-- After steps of the core a running bit that fits it gives a legal state (`45_controller.md` R180). -/
theorem legal_setRunning_of_coreSteps {s u : State} {k : Nat} (hl : Legal s) (h : coreSteps k s = some u) {b : Bool}
    (hb : b = true → u.core.halted = false) : Legal (setRunning b u) := by
  obtain ⟨hconfig, hcircuit, hcontroller, _⟩ := coreSteps_frame h
  have hcore : LegalCore u := coreSteps_keeps (fun _ _ => legalCore_coreStep) hl.core h
  exact legal_of_core hl (legalCore_congr hcore rfl rfl) hconfig hcircuit (by simp [hcontroller]) hb

/-- Leaving Running keeps a state legal (`45_controller.md` R169). -/
theorem legal_setRunning_false {s : State} (hl : Legal s) : Legal (setRunning false s) :=
  legal_of_core hl (legalCore_congr hl.core rfl rfl) rfl rfl rfl nofun

/-- Stopping and resetting the core keeps a state legal (`45_controller.md` R170). -/
theorem legal_resetCore_setRunning_false {s : State} (hl : Legal s) : Legal (resetCore (setRunning false s)) :=
  legal_of_core hl (legalCore_resetCore (legal_setRunning_false hl).core) rfl rfl rfl nofun

/-- Loading a program into an Idle machine keeps it legal (`45_controller.md` R165). -/
theorem legal_loadProgram {s : State} (hl : Legal s) (hidle : s.controller.running = false) (ws : List Cell) (a : Addr) :
    Legal (loadProgram ws a s) :=
  legal_of_core hl (legalCore_loadProgram ws a hl.core) (by simp) (by simp)
    (b := s.controller.running) (by simp) (by simp [hidle])

/-- An emission keeps a state legal. -/
theorem legal_emit {e : Event} {s t : State} (hl : Legal s) (h : emit e s = .next t) : Legal t := by
  obtain ⟨hroom, rfl⟩ := emit_eq_next.mp h
  have hroom : s.controller.events.length + 1 ≤ s.config.evtFifoDepth := hroom
  exact legal_of_controller hl ⟨hl.controller.runningReady, hl.controller.breakpointsRising, hl.controller.commandsFit,
    by simpa using hroom⟩

/-! A tick (`45_controller.md` R168). -/

/-- A batch keeps a state legal: what ends it leaves Running, or the core is still Ready. -/
theorem legal_batch {n : Nat} {s t : State} (hl : Legal s) (h : batch n s = .next t) : Legal t := by
  obtain ⟨k, u, _, hu, ⟨_, ht⟩ | ⟨_, _, hroom, ht⟩ | ⟨hready, ht⟩⟩ := batch_cases h
  · exact legal_emit (legal_setRunning_of_coreSteps (b := false) hl hu nofun) ht
  · have hhit : emit (.breakpointHit u.core.pc) (setRunning false u) = .next _ := emit_of_room _ hroom
    exact legal_emit (legal_emit (legal_setRunning_of_coreSteps (b := false) hl hu nofun) hhit) ht
  · have hrun : u.controller.running = true → u.core.halted = false := by
      rcases hready with rfl | hready
      · obtain rfl : s = u := Option.some.inj hu
        exact hl.controller.runningReady
      · exact fun _ => hready
    exact legal_emit (s := setRunning u.controller.running u) (legal_setRunning_of_coreSteps hl hu hrun) ht

/-- A tick keeps a state legal. -/
theorem legal_tick {s t : State} (hl : Legal s) (h : tick s = .next t) : Legal t := by
  unfold tick at h
  split_ifs at h
  · exact legal_batch hl h
  · cases h; exact hl

/-- A batch on a legal core does not fault (`40_step.md` R82). -/
theorem batch_ne_fault_of_legal {n : Nat} : ∀ {s : State}, LegalCore s → ∀ f, batch n s ≠ .fault f := by
  induction n with
  | zero => exact fun _ => emit_ne_fault _ _
  | succ n ih =>
    intro s hl f h
    rcases andThen_eq_fault.mp h with h | ⟨u, hu, h⟩
    · exact coreStep_ne_fault_of_legal hl f h
    · split_ifs at h
      · exact emit_ne_fault _ _ f h
      · rcases andThen_eq_fault.mp h with h | ⟨_, _, h⟩
        · exact emit_ne_fault _ _ f h
        · exact emit_ne_fault _ _ f h
      · exact ih (legalCore_coreStep hl hu) f h

/-- A tick on a legal core does not fault. -/
theorem tick_ne_fault_of_legal {s : State} (hl : LegalCore s) (f : Fault) : tick s ≠ .fault f := by
  unfold tick
  split_ifs
  · exact batch_ne_fault_of_legal hl f
  · exact nofun

/-! The commands (`45_controller.md` R165 to R176). -/

/-- Leaving Running on a halted core writes the running bit (`45_controller.md` R166). -/
theorem stopIfHalted_eq_setRunning (s : State) :
    stopIfHalted s = setRunning (s.controller.running && !s.core.halted) s := by
  unfold stopIfHalted
  split_ifs with h
  · simp [h]
  · simp [h]; rfl

/-- STEP keeps a state legal (`45_controller.md` R166). -/
theorem legal_commandStep {s t : State} (hl : Legal s) (h : commandStep s = .next t) : Legal t := by
  obtain ⟨u, hu, h⟩ := andThen_eq_next.mp h
  have hsteps : coreSteps 1 s = some u := by simp [coreSteps, hu]
  rw [stopIfHalted_eq_setRunning] at h
  exact legal_emit (legal_setRunning_of_coreSteps hl hsteps (by simp)) h

/-- RUN keeps a state legal: only a Ready core is set Running (`45_controller.md` R167). -/
theorem legal_commandRun {s t : State} {speed : Nat} (hl : Legal s) (h : commandRun speed s = .next t) : Legal t := by
  unfold commandRun at h
  split_ifs at h with hrun hhalt
  · cases h; exact hl
  · exact legal_emit hl h
  · cases h
    exact legal_of_controller hl ⟨fun _ => by simpa using hhalt, hl.controller.breakpointsRising,
      hl.controller.commandsFit, hl.controller.eventsFit⟩

/-- SET_SPEED keeps a state legal (`45_controller.md` R171). -/
theorem legal_commandSetSpeed {s t : State} {speed : Nat} (hl : Legal s) (h : commandSetSpeed speed s = .next t) :
    Legal t := by
  unfold commandSetSpeed at h
  split_ifs at h
  · cases h
    exact legal_of_controller hl ⟨hl.controller.runningReady, hl.controller.breakpointsRising,
      hl.controller.commandsFit, hl.controller.eventsFit⟩
  · cases h; exact hl

/-- A breakpoint set in its one form keeps a state legal (`45_controller.md` R176). -/
theorem legal_of_breakpoints {s : State} (hl : Legal s) {bs : List Addr} (hbs : risingAddrs bs = true) :
    Legal { s with controller := { s.controller with breakpoints := bs } } :=
  legal_of_controller hl ⟨hl.controller.runningReady, hbs, hl.controller.commandsFit, hl.controller.eventsFit⟩

/-- A command channel within its capacity keeps a state legal (`45_controller.md` R161). -/
theorem legal_of_commands {s : State} (hl : Legal s) {cs : List Command} (hcs : cs.length ≤ s.config.cmdFifoDepth) :
    Legal { s with controller := { s.controller with commands := cs } } :=
  legal_of_controller hl ⟨hl.controller.runningReady, hl.controller.breakpointsRising, hcs, hl.controller.eventsFit⟩

/-- Every command keeps a state legal. -/
theorem legal_command {c : Command} {s t : State} (hl : Legal s) (h : command c s = .next t) : Legal t := by
  cases c with
  | loadProgram words start => exact legal_emit (legal_loadProgram (legal_resetCore_setRunning_false hl) rfl _ _) h
  | step => exact legal_commandStep hl h
  | run speed => exact legal_commandRun hl h
  | stop => exact legal_emit (legal_setRunning_false hl) h
  | reset => exact legal_emit (legal_resetCore_setRunning_false hl) h
  | getState => exact legal_emit hl h
  | setSpeed speed => exact legal_commandSetSpeed hl h
  | bpAdd a => cases h; exact legal_of_breakpoints hl (risingAddrs_addBreakpoint a hl.controller.breakpointsRising)
  | bpRemove a => cases h; exact legal_of_breakpoints hl (risingAddrs_removeBreakpoint a hl.controller.breakpointsRising)
  | bpQuery => exact legal_emit hl h

/-- No command on a legal core faults: only STEP reaches the core's step (`40_step.md` R82). -/
theorem command_ne_fault_of_legal {s : State} (hl : LegalCore s) (c : Command) (f : Fault) : command c s ≠ .fault f := by
  cases c with
  | step =>
    intro h
    rcases andThen_eq_fault.mp h with h | ⟨_, _, h⟩
    · exact coreStep_ne_fault_of_legal hl f h
    · exact emit_ne_fault _ _ f h
  | run speed =>
    simp only [command, commandRun]
    split_ifs
    · exact nofun
    · exact emit_ne_fault _ _ f
    · exact nofun
  | setSpeed speed =>
    simp only [command, commandSetSpeed]
    split_ifs <;> exact nofun
  | loadProgram words start => exact emit_ne_fault _ _ f
  | stop => exact emit_ne_fault _ _ f
  | reset => exact emit_ne_fault _ _ f
  | getState => exact emit_ne_fault _ _ f
  | bpQuery => exact emit_ne_fault _ _ f
  | bpAdd a => exact nofun
  | bpRemove a => exact nofun

/-! The host's inputs (`45_controller.md` R161 to R163). -/

/-- Sending a command keeps a state legal. -/
theorem legal_sendCommand {c : Command} {s t : State} (hl : Legal s) (h : sendCommand c s = .next t) : Legal t := by
  unfold sendCommand at h
  split_ifs at h with hroom
  cases h
  exact legal_of_commands hl (by simpa using hroom)

/-- Taking a command keeps a state legal. -/
theorem legal_takeCommand {s t : State} (hl : Legal s) (h : takeCommand s = .next t) : Legal t := by
  cases hc : s.controller.commands with
  | nil =>
    rw [takeCommand_of_nil hc] at h
    cases h; exact hl
  | cons c cs =>
    rw [takeCommand_of_cons hc] at h
    have hfit := hl.controller.commandsFit
    rw [hc, List.length_cons] at hfit
    exact legal_command (legal_of_commands hl (Nat.le_of_succ_le hfit)) h

/-- Receiving an event keeps a state legal. -/
theorem legal_receiveEvent {s : State} (hl : Legal s) : Legal (receiveEvent s) :=
  legal_of_controller hl ⟨hl.controller.runningReady, hl.controller.breakpointsRising, hl.controller.commandsFit,
    by simpa using Nat.le_trans (Nat.sub_le _ 1) hl.controller.eventsFit⟩

/-- An engine operation keeps a state legal. -/
theorem legal_applyEngine {s : State} (hl : Legal s) (op : EngineOp) : Legal (applyEngine op s) :=
  ⟨legalCore_congr hl.core rfl rfl,
    ⟨hl.controller.runningReady, hl.controller.breakpointsRising, hl.controller.commandsFit, hl.controller.eventsFit⟩,
    legalEngine_applyEngine hl.engine op⟩

/-- What every input of the host keeps: legality. -/
theorem legal_input {i : Input} {s t : State} (hl : Legal s) (h : input i s = .next t) : Legal t := by
  cases i with
  | send c => exact legal_sendCommand hl h
  | takeCommand => exact legal_takeCommand hl h
  | tick => exact legal_tick hl h
  | receiveEvent => cases h; exact legal_receiveEvent hl
  | engine op => cases h; exact legal_applyEngine hl op

/-- No input of the host faults on a legal state: the core's step is reached by a tick and by a command only. -/
theorem input_ne_fault_of_legal {s : State} (hl : LegalCore s) (i : Input) (f : Fault) : input i s ≠ .fault f := by
  cases i with
  | send c =>
    simp only [input, sendCommand]
    split_ifs <;> exact nofun
  | takeCommand =>
    simp only [input, takeCommand]
    split
    · exact nofun
    · refine command_ne_fault_of_legal ?_ _ f
      exact legalCore_congr hl rfl rfl
  | tick => exact tick_ne_fault_of_legal hl f
  | receiveEvent => exact nofun
  | engine op => exact nofun

/-- Settles O60: a step is the effect of one input, and every input keeps legality and does not fault. -/
theorem legalStatesAreKept : Obligations.LegalStatesAreKept := by
  intro s hl
  cases hs : s.inputs with
  | nil =>
    rw [step_of_no_input hs]
    exact ⟨fun t h => by cases h; exact hl, nofun⟩
  | cons i rest =>
    rw [step_of_input hs]
    have hl' := legal_of_inputs hl rest
    exact ⟨fun t => legal_input hl', input_ne_fault_of_legal hl'.core i⟩

/-! Power-up (`10_state.md` R34). -/

/-- The parameters of the reference architecture are admissible, whatever the open ones are (`00_scope.md` R5, U8). -/
theorem config_reference_wellFormed : Config.reference.wellFormed = true := by
  have hcycles : CycleTable.reference.wellFormed = true := by decide
  simp [Config.wellFormed, Config.reference, hcycles]

/-- The core right after power-up is legal (`10_state.md` R19, R34). -/
theorem legalCore_reset : LegalCore State.reset where
  config := config_reference_wellFormed
  pcInMemory := by decide
  erroredHalted := nofun
  errorCodeNone := by decide
  memCanonical := Memory.wf_nil
  memBelow := Memory.below_nil _

/-- The controller right after power-up is legal: the one event `READY` fits every event channel (`45_controller.md` R178). -/
theorem legalController_reset : LegalController State.reset where
  runningReady := nofun
  breakpointsRising := rfl
  commandsFit := Nat.zero_le _
  eventsFit := Nat.le_add_left 1 Config.openEvtFifoDepth

/-- Settles O59: each block is legal right after power-up; the engine has no circuit yet. -/
theorem powerUpIsLegal : Obligations.PowerUpIsLegal :=
  ⟨legalCore_reset, legalController_reset, ⟨nofun, nofun⟩⟩

/-- Settles O28: every field has its literal value, an empty memory reads 0, and the parameters are admissible. -/
theorem powerUpState : Obligations.PowerUpState := by
  have hmem : ∀ a, State.reset.core.mem.read a = 0 := Memory.read_nil
  have hconfig : State.reset.config.wellFormed = true := config_reference_wellFormed
  exact ⟨rfl, rfl, rfl, rfl, rfl, rfl, rfl, rfl, rfl, rfl, rfl, rfl, rfl, hmem, rfl, rfl, rfl, rfl, rfl, rfl, rfl, rfl, rfl,
    hconfig, rfl, rfl, rfl⟩

end Sys2Proof.Machine
end

section
/-!
The two ends of an instruction (`40_step.md` R86 to R90) and the report of the core's status (`45_controller.md` R164).
-/

namespace Sys2Proof.Machine

open Sys2Proof.Safety

/-! What a fallible part of an instruction gave, when the instruction raised nothing. -/

/-- Two fallible operations in a row that raise nothing both raise nothing. -/
theorem bind_eq_ok {α β : Type} {x : Except Raised α} {f : α → Except Raised β} {b : β} :
    (x >>= f) = .ok b ↔ ∃ a, x = .ok a ∧ f a = .ok b := by
  cases x <;> simp [bind, Except.bind]

/-- A memory read that raises nothing gives the cell (`20_memory.md` R41). -/
theorem memRead_eq_ok {s : State} {a : Nat} {v : Cell} (h : memRead s a = .ok v) : v = s.core.mem.read a := by
  rcases memRead_cases s a with ⟨_, hr⟩ | ⟨_, hr⟩
  · rw [hr] at h; cases h; rfl
  · rw [hr] at h; cases h

/-- A memory write that raises nothing is the pending write of that cell (`20_memory.md` R42). -/
theorem memWrite_eq_ok {s : State} {a : Nat} {v : Cell} {w : Nat × Cell} (h : memWrite s a v = .ok w) : w = (a, v) := by
  rcases memWrite_cases s a v with ⟨_, hr⟩ | ⟨_, hr⟩
  · rw [hr] at h; cases h; rfl
  · rw [hr] at h; cases h

/-- An operand fetch and a memory read in a row that raise nothing hand the cell read to what follows (`40_step.md` R83, R85). -/
theorem eq_of_operandCells_memRead {s : State} {k a : Nat} {f : Cell → Effect} {e : Effect}
    (h : (do operandCells s k; let m ← memRead s a; return f m) = Except.ok e) : f (s.core.mem.read a) = e := by
  obtain ⟨_, _, h⟩ := bind_eq_ok.mp h
  obtain ⟨m, hm, h⟩ := bind_eq_ok.mp h
  rw [← memRead_eq_ok hm]
  exact Except.ok.inj h

/-! The completed instruction. -/

/-- The pending writes of an effect are the ones that the statements give the completed instruction (`40_step.md` R85 to R87). -/
structure CompletesAs (i : Instr) (s : State) (e : Effect) : Prop where
  acc : e.acc = accAfter i s
  zf : e.zf = zAfter i s
  pc : BitVec.ofNat 8 e.newPC = pcAfter i s
  mar : e.mar = (lastAccess i s).1
  mdr : e.mdr = (lastAccess i s).2
  halt : e.halt = decide (i = .hlt)
  mem : s.core.mem.apply e.store = memAfter i s

/-- Every effect of an instruction that raises nothing writes what the statements say of it. -/
theorem completesAs_of_effectOf {i : Instr} {s : State} {e : Effect} (h : effectOf i s = .ok e) : CompletesAs i s e := by
  have hpc (k : Nat) : BitVec.ofNat 8 (nextPC s k) = s.core.pc + BitVec.ofNat 8 k := ofNat_toNat_add _ _
  cases i with
  | hlt =>
    cases h
    exact ⟨rfl, rfl, hpc 1, rfl, rfl, rfl, rfl⟩
  | lda a =>
    cases eq_of_operandCells_memRead h
    exact ⟨rfl, rfl, hpc 3, rfl, rfl, rfl, rfl⟩
  | sta a =>
    obtain ⟨_, _, h⟩ := bind_eq_ok.mp h
    obtain ⟨w, hw, h⟩ := bind_eq_ok.mp h
    cases memWrite_eq_ok hw
    cases h
    exact ⟨rfl, rfl, hpc 3, rfl, rfl, rfl, rfl⟩
  | add a =>
    cases eq_of_operandCells_memRead h
    exact ⟨add4_eq _ _, by rw [add4_eq]; rfl, hpc 3, rfl, rfl, rfl, rfl⟩
  | sub a =>
    cases eq_of_operandCells_memRead h
    exact ⟨sub4_eq _ _, by rw [sub4_eq]; rfl, hpc 3, rfl, rfl, rfl, rfl⟩
  | cmp a =>
    cases eq_of_operandCells_memRead h
    exact ⟨rfl, rfl, hpc 3, rfl, rfl, rfl, rfl⟩
  | jmp a =>
    obtain ⟨_, _, h⟩ := bind_eq_ok.mp h
    cases h
    exact ⟨rfl, rfl, BitVec.ofNat_toNat 8 a, rfl, rfl, rfl, rfl⟩
  | jz a =>
    obtain ⟨_, _, h⟩ := bind_eq_ok.mp h
    cases h
    refine ⟨rfl, rfl, ?_, ofNat_toNat_add _ 2, rfl, rfl, rfl⟩
    simp only [pcAfter]
    split_ifs
    · exact BitVec.ofNat_toNat 8 a
    · exact hpc 3
  | ldi v =>
    obtain ⟨_, _, h⟩ := bind_eq_ok.mp h
    cases h
    exact ⟨rfl, rfl, hpc 2, ofNat_toNat_add _ 1, rfl, rfl, rfl⟩

/-- The commit of an instruction's effect is the completed instruction (`40_step.md` R86 to R89). -/
theorem commit_eq_completed {i : Instr} {s : State} {e : Effect} (h : CompletesAs i s e) :
    { s with core := s.core.commit (opcodeOf i) (cyclesOf s.config.cycles i) e
             cyclesConsumed := cyclesOf s.config.cycles i } = completed i s := by
  obtain ⟨hacc, hzf, hpc, hmar, hmdr, hhalt, hmem⟩ := h
  simp only [IsaCore.commit, completed, hacc, hzf, hpc, hmar, hmdr, hhalt, hmem]

/-- Settles O12: an instruction ends in an error step, or in the commit of its effect, which is the completed instruction. -/
theorem instructionIsAtomic : Obligations.InstructionIsAtomic := by
  intro i s t h
  rcases exec_cases h with ⟨a, rfl⟩ | ⟨e, he, hpc, _, _, rfl⟩
  · exact .inl ⟨a, errorStep_eq_intoError _ _ _ _⟩
  · refine .inr ⟨commit_eq_completed (completesAs_of_effectOf he), ?_⟩
    calc (BitVec.ofNat 8 e.newPC).toNat
      _ = e.newPC % 2 ^ 8 := BitVec.toNat_ofNat _ _
      _ ≤ e.newPC := Nat.mod_le _ _
      _ < s.config.memSize := hpc

/-! The event that fits the core's status (`45_controller.md` R164). -/

theorem reportEvent_of_errored {s : State} (h : s.core.errored = true) :
    reportEvent s = .error s.core.errorCode s.core.errorAddress s.core.errorOpcode (snapshot s) := by
  simp [reportEvent, h]

theorem reportEvent_of_halted {s : State} (he : s.core.errored = false) (hh : s.core.halted = true) :
    reportEvent s = .halted (snapshot s) := by
  simp [reportEvent, he, hh]

theorem reportEvent_of_ready {s : State} (he : s.core.errored = false) (hh : s.core.halted = false) :
    reportEvent s = .stateUpdate (snapshot s) := by
  simp [reportEvent, he, hh]

/-- With room in the channel a report appends the event that fits. -/
theorem report_of_room {s : State} {e : Event} (h : RoomFor 1 s) (he : reportEvent s = e) :
    report s = .next (withEvents [e] s) :=
  he ▸ emit_of_room _ h

/-- Settles O33: a report is the emission of the one event that fits, for each status of the core. -/
theorem reportFitsStatus : Obligations.ReportFitsStatus := by
  refine fun s => ⟨⟨rfl, rfl, rfl, rfl⟩, fun hroom => ⟨?errored, ?halted, ?ready⟩⟩
  case errored => exact fun he => report_of_room hroom (reportEvent_of_errored he)
  case halted => exact fun he hh => report_of_room hroom (reportEvent_of_halted he hh)
  case ready => exact fun he hh => report_of_room hroom (reportEvent_of_ready he hh)

end Sys2Proof.Machine
end

section
/-!
Memory as programs see it (`20_memory.md`): a store of STA and the next fetch, and a program load.
-/

namespace Sys2Proof.Machine

/-! A store and the next fetch (R49, R52). -/

/-- The pending write of an STA that raises nothing is ACC to its operand's cell (`41_load_store.md` R102). -/
theorem store_of_effectOf_sta {addr : Addr} {s : State} {e : Effect} (h : effectOf (.sta addr) s = .ok e) :
    e.store = some (addr.toNat, s.core.acc) := by
  obtain ⟨_, _, h⟩ := bind_eq_ok.mp h
  obtain ⟨w, hw, h⟩ := bind_eq_ok.mp h
  cases memWrite_eq_ok hw
  cases h
  rfl

/-- An STA that completes has its operand inside memory and has written ACC there (`41_load_store.md` R102). -/
theorem exec_sta_stores_acc {addr : Addr} {s t : State} (h : exec (.sta addr) s = .next t) (ht : t.core.errored = false) :
    addr.toNat < s.config.memSize ∧ t.core.mem = s.core.mem.write addr.toNat s.core.acc := by
  rcases exec_cases h with ⟨a, rfl⟩ | ⟨e, he, _, hinside, _, rfl⟩
  · cases ht
  · have hstore := store_of_effectOf_sta he
    exact ⟨hinside _ hstore, by rw [IsaCore.commit_mem, hstore]; rfl⟩

/-- Settles O10: the fetch reads the memory that the store has written, at the address of the store. -/
theorem storeIsSeenByNextFetch : Obligations.StoreIsSeenByNextFetch := by
  intro addr s t k hwf _ h ht hk haddr
  obtain ⟨hinside, hmem⟩ := exec_sta_stores_acc h ht
  have hexists : t.core.pc.toNat + k < t.config.memSize := by rwa [haddr, (exec_frame h).1]
  calc (fetchCells t)[k]?
    _ = some (t.core.mem.read (t.core.pc.toNat + k)) := cellsFrom_getElem? hk hexists
    _ = some ((s.core.mem.write addr.toNat s.core.acc).read addr.toNat) := by rw [haddr, hmem]
    _ = some s.core.acc := by rw [Memory.read_write_self hwf]

/-! A program load (R54). -/

/-- The address that a load reports fits the nine bits of `errorAddress` (`10_state.md` R16). -/
theorem toNat_ofNat_max_start (start : Addr) {n : Nat} (h : n ≤ 256) :
    (BitVec.ofNat 9 (max start.toNat n)).toNat = max start.toNat n := by
  have hstart : start.toNat < 256 := start.isLt
  rw [BitVec.toNat_ofNat, Nat.mod_eq_of_lt (by omega)]

/-- Settles O31: a load is one of its two results, each on its own side of the bound; an absent start address is read as 0. -/
theorem loadProgramWritesAllOrNothing : Obligations.LoadProgramWritesAllOrNothing := by
  intro words start s hwf hsize
  rcases loadProgram_cases words start s with ⟨hfits, hload⟩ | ⟨hbeyond, hload⟩ <;> rw [hload]
  · refine ⟨fun hbeyond => absurd hfits (Nat.not_le.mpr hbeyond), fun _ => ⟨?inside, ?outside, _, rfl⟩, rfl⟩
    case inside => exact fun _ _ => Memory.read_writeCells_inside _ _ hwf
    case outside => exact fun _ => Memory.read_writeCells_outside _ _ _
  · exact ⟨fun _ => ⟨rfl, toNat_ofNat_max_start start hsize⟩, fun hfits => absurd hfits (Nat.not_le.mpr hbeyond), rfl⟩

end Sys2Proof.Machine
end

section
/-!
The encoding (`30_encoding.md`): the cells that decode to an instruction are exactly its encoding with other cells after it.
-/

namespace Sys2Proof

/-- The operand cells of a format and the instruction that the format makes of them (`30_encoding.md` R61 to R64). -/
inductive Format.Reads : Format → List Cell → Instr → Prop where
  | n (i : Instr) : Reads (.n i) [] i
  | i (f : Cell → Instr) (imm : Cell) : Reads (.i f) [imm] (f imm)
  | a (f : Addr → Instr) (hi lo : Cell) : Reads (.a f) [hi, lo] (f (joinAddr hi lo))

/-- Format A reads the two halves of an address back as that address (`30_encoding.md` R63, R64). -/
theorem Format.reads_halves (f : Addr → Instr) (addr : Addr) : (Format.a f).Reads [hiCell addr, loCell addr] (f addr) := by
  simpa [Machine.joinAddr_hiCell_loCell] using Format.Reads.a f (hiCell addr) (loCell addr)

/-! The decoder, through the format of the opcode cell. -/

theorem decode_of_reads {op : Cell} {fmt : Format} {ops : List Cell} {i : Instr} (hf : formatOf op = some fmt)
    (h : fmt.Reads ops i) (rest : List Cell) : decode (op :: (ops ++ rest)) = .ok (i, rest) := by
  cases h <;> simp [decode, hf]

theorem decode_of_formatA {op : Cell} {f : Addr → Instr} (hf : formatOf op = some (.a f)) (hi lo : Cell)
    (rest : List Cell) : decode (op :: hi :: lo :: rest) = .ok (f (hi ++ lo), rest) :=
  decode_of_reads hf (.a f hi lo) rest

theorem decode_of_illegal {op : Cell} (hf : formatOf op = none) (rest : List Cell) :
    decode (op :: rest) = .error (.illegalOpcode op) := by
  simp [decode, hf]

/-- What decodes has an opcode cell with a format, the cells which that format reads, and the rest. -/
theorem exists_reads_of_decode {cells rest : List Cell} {i : Instr} (h : decode cells = .ok (i, rest)) :
    ∃ op fmt ops, formatOf op = some fmt ∧ fmt.Reads ops i ∧ cells = op :: (ops ++ rest) := by
  obtain - | ⟨op, cells⟩ := cells
  · cases h
  · rcases hf : formatOf op with - | (j | f | f) <;> simp only [decode, hf] at h
    case none => cases h
    case n => cases h; exact ⟨op, _, [], hf, .n i, rfl⟩
    case i =>
      split at h <;> cases h
      exact ⟨op, _, _, hf, .i f _, rfl⟩
    case a =>
      split at h <;> cases h
      exact ⟨op, _, _, hf, .a f _ _, rfl⟩

/-! The two tables, of opcodes and of encodings, agree (`30_encoding.md` R65, R69). -/

/-- The format that an instruction's opcode selects reads its operand cells as this instruction. -/
theorem exists_formatOf_opcodeOf_reads (i : Instr) :
    ∃ fmt, formatOf (opcodeOf i) = some fmt ∧ fmt.Reads (operandCellsOf i) i := by
  cases i with
  | hlt => exact ⟨_, rfl, .n _⟩
  | ldi imm => exact ⟨_, rfl, .i _ imm⟩
  | lda addr | sta addr | add addr | sub addr | jmp addr | jz addr | cmp addr => exact ⟨_, rfl, Format.reads_halves _ addr⟩

/-- An opcode cell and the operand cells that its format reads as an instruction are this instruction's encoding. -/
theorem eq_encode_of_reads {op : Cell} {fmt : Format} {ops : List Cell} {i : Instr} (hf : formatOf op = some fmt)
    (h : fmt.Reads ops i) : op :: ops = encode i := by
  -- Each row of the table fixes the opcode cell, and the halves of a joined address are its two cells.
  unfold formatOf at hf
  split at hf <;> cases hf <;> cases h <;>
    simpa [encode, opcodeOf, operandCellsOf, Machine.hiCell_joinAddr, Machine.loCell_joinAddr] using BitVec.eq_of_toNat_eq ‹_›

/-- The decoder accepts exactly the encodings with any cells after them (`30_encoding.md` R67). -/
theorem decode_eq_ok_iff {cells rest : List Cell} {i : Instr} : decode cells = .ok (i, rest) ↔ cells = encode i ++ rest := by
  constructor
  · intro h
    obtain ⟨op, fmt, ops, hf, hreads, rfl⟩ := exists_reads_of_decode h
    rw [← eq_encode_of_reads hf hreads, List.cons_append]
  · rintro rfl
    obtain ⟨fmt, hf, hreads⟩ := exists_formatOf_opcodeOf_reads i
    exact decode_of_reads hf hreads rest

/-- Settles O1: an encoding is one of the cell lists which the decoder accepts. -/
theorem decodeInvertsEncode : Obligations.DecodeInvertsEncode :=
  fun _ _ => decode_eq_ok_iff.mpr rfl

/-- Settles O2: the decoder accepts nothing but encodings. -/
theorem encodeInvertsDecode : Obligations.EncodeInvertsDecode :=
  fun _ _ _ => decode_eq_ok_iff.mp

/-- The seven opcodes without a format (`30_encoding.md` R66). -/
theorem formatOf_eq_none_of_ge {op : Cell} (h : 0x9 ≤ op.toNat) : formatOf op = none := by
  have table : ∀ op : Cell, 0x9 ≤ op.toNat → (formatOf op).isNone := by decide
  exact Option.isNone_iff_eq_none.mp (table op h)

/-- Settles O3: each row of the table is its opcode's format and the cells which that format reads. -/
theorem decodeTableIsTotal : Obligations.DecodeTableIsTotal := by
  refine ⟨?hlt, decode_of_formatA rfl, decode_of_formatA rfl, decode_of_formatA rfl, decode_of_formatA rfl,
    decode_of_formatA rfl, decode_of_formatA rfl, ?ldi, decode_of_formatA rfl, ?illegal, ?length⟩
  case hlt => exact decode_of_reads rfl (.n _)
  case ldi => exact fun imm => decode_of_reads rfl (.i _ imm)
  case illegal => exact fun _ rest h => decode_of_illegal (formatOf_eq_none_of_ge h) rest
  case length => decide

/-- Settles O4: the cells are computed, and each list is an encoding with the next list after it. -/
theorem scenarioAProgramCells : Obligations.ScenarioAProgramCells :=
  ⟨by decide, decodeInvertsEncode (.ldi 5) _, decodeInvertsEncode (.sta 0x20) _, decodeInvertsEncode (.lda 0x20) _,
    decodeInvertsEncode .hlt _⟩

end Sys2Proof
end

section
/-!
The step of the ISA Core (`40_step.md`): what the cells at PC make it do, what it depends on, and what a completed instruction
leaves in IR, MAR, MDR, the counters and `halted`.
-/

namespace Sys2Proof.Machine

open Sys2Proof.Safety

/-! The core's step on a halted core and on cells that do not decode, beside `coreStep_of_decode`. -/

theorem coreStep_of_halted {s : State} (hh : s.core.halted = true) : coreStep s = .next { s with cyclesConsumed := 0 } :=
  if_pos hh

theorem coreStep_of_illegalOpcode {s : State} {op : Cell} (hh : s.core.halted = false)
    (hd : decode (fetchCells s) = .error (.illegalOpcode op)) :
    coreStep s = .next (intoError .invalidOpcode s.core.pc.toNat op s) := by
  simp [coreStep, hh, hd, errorStep_eq_intoError]

theorem coreStep_of_missingOperand {s : State} {op : Cell} {k : Nat} (hh : s.core.halted = false)
    (hd : decode (fetchCells s) = .error (.missingOperand op k)) :
    coreStep s = .next (intoError .addressOutOfRange (s.core.pc.toNat + k) op s) := by
  simp [coreStep, hh, hd, errorStep_eq_intoError]

theorem coreStep_of_noCells {s : State} (hh : s.core.halted = false) (hd : decode (fetchCells s) = .error .noCells) :
    coreStep s = .fault .fetchBeyondMemory := by
  simp [coreStep, hh, hd]

/-- Settles O7: the check of `halted` comes first. -/
theorem haltedStepChangesNothing : Obligations.HaltedStepChangesNothing :=
  fun _ => coreStep_of_halted

/-! The machine's step on a pending command (`45_controller.md` R162, R166). -/

/-- The step in which the controller takes a command is that command on the state without it. -/
theorem step_of_taking {c : Command} {cs : List Command} {ins : List Input} {s : State} (h : Taking c cs ins s) :
    step s = command c (taken cs ins s) := by
  obtain ⟨hinput, hcommand⟩ := h
  exact (step_of_input hinput).trans (takeCommand_of_cons hcommand)

/-- Settles O5: taking the command changes neither the cells at PC nor `halted`. -/
theorem stepRunsDecodedInstruction : Obligations.StepRunsDecodedInstruction := by
  refine fun s i rest hh hd => ⟨coreStep_of_decode hh hd, fun cs ins htaking => ?_⟩
  have hfetch : fetchCells (taken cs ins s) = fetchCells s := fetchCells_congr rfl rfl
  have hcore : coreStep (taken cs ins s) = exec i (taken cs ins s) := coreStep_of_decode hh (hfetch ▸ hd)
  calc step s
    _ = commandStep (taken cs ins s) := step_of_taking htaking
    _ = andThen (exec i (taken cs ins s)) fun t => report (stopIfHalted t) := by rw [commandStep, hcore]

/-! The fetch of an instruction that fits into memory (`20_memory.md` R44). -/

/-- The model's lemmas about the encoding's opcode and length hold of every instruction. -/
theorem opcodeCell_statement : ∀ i : Instr, Laws.OpcodeCell.Statement i
  | .hlt => Laws.OpcodeCell.hlt
  | .lda addr => Laws.OpcodeCell.lda addr
  | .sta addr => Laws.OpcodeCell.sta addr
  | .add addr => Laws.OpcodeCell.add addr
  | .sub addr => Laws.OpcodeCell.sub addr
  | .jmp addr => Laws.OpcodeCell.jmp addr
  | .jz addr => Laws.OpcodeCell.jz addr
  | .ldi imm => Laws.OpcodeCell.ldi imm
  | .cmp addr => Laws.OpcodeCell.cmp addr

/-- No opcode asks for more cells than a fetch reads (`30_encoding.md` R60). -/
theorem lengthOf_le_three {op : Cell} {n : Nat} (hn : lengthOf op = some n) : n ≤ 3 := by
  unfold lengthOf at hn
  split at hn <;> cases hn <;> decide

/-- Cells that stand in memory at PC are the first ones fetched. -/
theorem isPrefix_fetchCells {s : State} {cells : List Cell} (hlength : cells.length ≤ 3)
    (hfits : s.core.pc.toNat + cells.length ≤ s.config.memSize)
    (hcells : ∀ k c, cells[k]? = some c → s.core.mem.read (s.core.pc.toNat + k) = c) : cells <+: fetchCells s := by
  rw [List.prefix_iff_getElem?]
  intro k hk
  rw [← hcells k _ (List.getElem?_eq_getElem hk)]
  exact cellsFrom_getElem? (by omega) (by omega)

/-- Settles O6: the fetched cells begin with the encoding of the instruction, so they decode to it. -/
theorem cellsAtPcAreExecuted : Obligations.CellsAtPcAreExecuted := by
  intro s i hh hfits hcells
  obtain ⟨_, hopcode, hlength⟩ := opcodeCell_statement i
  obtain ⟨rest, hrest⟩ : encode i <+: fetchCells s :=
    isPrefix_fetchCells (lengthOf_le_three hopcode) (hlength ▸ hfits) hcells
  exact coreStep_of_decode hh (decode_eq_ok_iff.mpr hrest.symm)

/-! The fetch of an instruction that runs past memory (`40_step.md` R83). -/

/-- A fetch ends with the last cell of memory. -/
theorem length_cellsFrom (s : State) (n a : Nat) : (cellsFrom s n a).length = min n (s.config.memSize - a) := by
  induction n generalizing a with
  | zero => simp [cellsFrom]
  | succ n ih =>
    simp only [cellsFrom]
    split_ifs with ha
    · rw [List.length_cons, ih]; omega
    · rw [List.length_nil]; omega

theorem fetchCells_eq_cons {s : State} (hpc : s.core.pc.toNat < s.config.memSize) :
    fetchCells s = s.core.mem.read s.core.pc.toNat :: cellsFrom s 2 (s.core.pc.toNat + 1) :=
  if_pos hpc

/-- With fewer operand cells than its opcode needs an instruction lacks the one after the last (`30_encoding.md` R68). -/
theorem decode_of_short {op : Cell} {ops : List Cell} {n : Nat} (hn : lengthOf op = some n) (hshort : ops.length + 1 < n) :
    decode (op :: ops) = .error (.missingOperand op (ops.length + 1)) := by
  rcases hf : formatOf op with - | (i | f | f) <;> simp only [lengthOf, hf, reduceCtorEq, Option.some.injEq] at hn
  case some.n => omega
  case some.i =>
    obtain rfl : ops = [] := List.eq_nil_of_length_eq_zero (by omega)
    simp [decode, hf]
  case some.a =>
    obtain - | ⟨hi, - | ⟨lo, rest⟩⟩ := ops
    · simp [decode, hf]
    · simp [decode, hf]
    · simp only [List.length_cons] at hshort; omega

/-- Settles O9: the fetch ends at `MEM_SIZE`, so the first operand cell that it lacks has that address. -/
theorem missingOperandCellRaisesAddressOutOfRange : Obligations.MissingOperandCellRaisesAddressOutOfRange := by
  intro s n hh hpc hn hbeyond
  have hthree := lengthOf_le_three hn
  have hlength := length_cellsFrom s 2 (s.core.pc.toNat + 1)
  have hd := decode_of_short (ops := cellsFrom s 2 (s.core.pc.toNat + 1)) hn (by omega)
  rw [← fetchCells_eq_cons hpc] at hd
  have haddress : s.core.pc.toNat + ((cellsFrom s 2 (s.core.pc.toNat + 1)).length + 1) = s.config.memSize := by omega
  rw [coreStep_of_missingOperand hh hd, haddress]

/-! What the core's step depends on (`40_step.md` R80, `10_state.md` R20). -/

/-- An instruction's pending writes depend on the core and the parameters alone. -/
theorem effectOf_congr {s s' : State} (hcore : s.core = s'.core) (hconfig : s.config = s'.config) (i : Instr) :
    effectOf i s = effectOf i s' := by
  obtain ⟨config, core⟩ := s
  obtain ⟨config', core'⟩ := s'
  obtain rfl : core = core' := hcore
  obtain rfl : config = config' := hconfig
  rfl

/-- The end of an instruction makes the core and the returned value of the core and the parameters alone. -/
theorem finishStep_congr {s s' : State} (hcore : s.core = s'.core) (hconfig : s.config = s'.config) (op : Cell) (n : Nat)
    (r : Except Raised Effect) :
    (finishStep op n r s').core = (finishStep op n r s).core ∧
      (finishStep op n r s').cyclesConsumed = (finishStep op n r s).cyclesConsumed := by
  cases r with
  | error x => simp [finishStep, hcore]
  | ok e =>
    simp only [finishStep, hconfig]
    split_ifs <;> simp [hcore]

/-- Settles O11: `halted`, the fetched cells and the effect of the decoded instruction are the same in both states, and so is what
each outcome of the decoding makes of them. -/
theorem coreStepDependsOnCoreAlone : Obligations.CoreStepDependsOnCoreAlone := by
  intro s s' t hcore hconfig h
  cases hh : s.core.halted with
  | true =>
    rw [coreStep_of_halted hh] at h
    cases h
    exact ⟨_, coreStep_of_halted (hcore ▸ hh), hcore.symm, rfl⟩
  | false =>
    have hh' : s'.core.halted = false := hcore ▸ hh
    have hfetch : fetchCells s' = fetchCells s := fetchCells_congr hcore.symm hconfig.symm
    rcases hd : decode (fetchCells s) with (_ | op | ⟨op, k⟩) | ⟨i, rest⟩ <;> have hd' := hfetch ▸ hd
    case error.noCells =>
      rw [coreStep_of_noCells hh hd] at h
      cases h
    case error.illegalOpcode =>
      rw [coreStep_of_illegalOpcode hh hd] at h
      cases h
      exact ⟨_, coreStep_of_illegalOpcode hh' hd', by simp [hcore], rfl⟩
    case error.missingOperand =>
      rw [coreStep_of_missingOperand hh hd] at h
      cases h
      exact ⟨_, coreStep_of_missingOperand hh' hd', by simp [hcore], rfl⟩
    case ok =>
      rw [coreStep_of_decode hh hd, exec_eq_finishStep, effectOf_congr hcore hconfig, hconfig] at h
      cases h
      exact ⟨_, (coreStep_of_decode hh' hd').trans (exec_eq_finishStep i s'), finishStep_congr hcore hconfig _ _ _⟩

/-! What a completed instruction leaves (`40_step.md` R86 to R91). -/

/-- An instruction that does not end in the error state completes (`10_state.md` R19). -/
theorem eq_completed_of_not_errored {i : Instr} {s t : State} (h : exec i s = .next t) (ht : t.core.errored = false) :
    t = completed i s := by
  rcases instructionIsAtomic i s t h with ⟨a, rfl⟩ | ⟨hcompleted, _⟩
  · cases ht
  · exact hcompleted

/-- Settles O13: the completed instruction's MAR and MDR are those of its last access, for each instruction. -/
theorem commitWritesIrMarMdr : Obligations.CommitWritesIrMarMdr := by
  intro i s t _ h ht
  rw [eq_completed_of_not_errored h ht]
  exact ⟨rfl, by cases i <;> rfl⟩

/-- Every entry of the reference table is at least 1 (`40_step.md` R88). -/
theorem one_le_cyclesOf_reference (i : Instr) : 1 ≤ cyclesOf CycleTable.reference i := by
  cases i <;> simp [cyclesOf, CycleTable.reference]

/-- Settles O14: the completed instruction returns its entry of the table and adds it. -/
theorem cyclesFollowTheTable : Obligations.CyclesFollowTheTable := by
  intro i s t htable _ h ht
  have hcycles : t.cyclesConsumed = cyclesOf CycleTable.reference i := by
    rw [eq_completed_of_not_errored h ht, ← htable]; rfl
  refine ⟨?_, hcycles ▸ one_le_cyclesOf_reference i, ?_⟩
  · rw [hcycles]; cases i <;> rfl
  · rw [eq_completed_of_not_errored h ht]; rfl

/-- Settles O27: an error step sets `halted`, and the completed instruction sets it for HLT and keeps it for any other. -/
theorem onlyHltHaltsWithoutError : Obligations.OnlyHltHaltsWithoutError := by
  intro i s t hh he h
  rcases instructionIsAtomic i s t h with ⟨a, rfl⟩ | ⟨rfl, _⟩
  · exact ⟨nofun, fun _ => rfl⟩
  · exact ⟨fun _ => by simp [completed, hh], fun herr => absurd (he.symm.trans herr) nofun⟩

end Sys2Proof.Machine
end

section
/-!
The load and store instructions (`41_load_store.md`): the errors of the operand cells and of the data access, the completed
instruction, and what an instruction that stores and one that does not leave unchanged.
-/

namespace Sys2Proof.Machine

open Sys2Proof.Safety

/-! Operand cells (`40_step.md` R83). -/

theorem operandCells_of_fit {s : State} {n : Nat} (h : s.core.pc.toNat + n < s.config.memSize) :
    operandCells s n = .ok () := by
  unfold operandCells
  generalize s.core.pc.toNat = p at h
  induction n generalizing p with
  | zero => rfl
  | succ n ih =>
    rw [cellsExist, if_pos (by omega)]
    exact ih (p + 1) (by omega)

theorem operandCells_of_first_missing {s : State} (n : Nat) (h : s.config.memSize ≤ s.core.pc.toNat + 1) :
    operandCells s (n + 1) = .error ⟨.addressOutOfRange, s.core.pc.toNat + 1⟩ :=
  if_neg (Nat.not_lt.mpr h)

theorem operandCells_of_second_missing {s : State} (n : Nat) (hfirst : s.core.pc.toNat + 1 < s.config.memSize)
    (hsecond : s.config.memSize ≤ s.core.pc.toNat + 2) :
    operandCells s (n + 2) = .error ⟨.addressOutOfRange, s.core.pc.toNat + 2⟩ :=
  (if_pos hfirst).trans (if_neg (Nat.not_lt.mpr hsecond))

/-- An instruction whose effect begins with the operand cells raises what they raise, whatever comes after (`40_step.md` R92). -/
theorem exec_of_operandCells_error {i : Instr} {s : State} {n a : Nat} {rest : Unit → Except Raised Effect}
    (he : effectOf i s = operandCells s n >>= rest) (hcells : operandCells s n = .error ⟨.addressOutOfRange, a⟩) :
    exec i s = .next (intoError .addressOutOfRange a (opcodeOf i) s) :=
  exec_of_raise (by rw [he, hcells]; rfl)

/-- The operand errors of every instruction with two operand cells (`60_exceptions.md` R202). -/
theorem jumpOperandErrors_of_operandCells {i : Instr} {s : State} {rest : Unit → Except Raised Effect}
    (he : effectOf i s = operandCells s 2 >>= rest) : JumpOperandErrors i (opcodeOf i) s :=
  ⟨fun hfirst => exec_of_operandCells_error he (operandCells_of_first_missing 1 hfirst),
    fun hfirst hsecond => exec_of_operandCells_error he (operandCells_of_second_missing 0 hfirst hsecond)⟩

/-- An effect whose new PC is inside memory makes the completed instruction (`40_step.md` R86 to R89). -/
theorem exec_eq_completed {i : Instr} {s : State} {e : Effect} (he : effectOf i s = .ok e)
    (hpc : e.newPC < s.config.memSize) : exec i s = .next (completed i s) := by
  rw [exec_of_effect he hpc, commit_eq_completed (completesAs_of_effectOf he)]

/-! LDI (R100). -/

/-- LDI has one operand cell and no data access, so only the next PC can fail after its operand cell. -/
theorem exists_effectOf_ldi {imm : Cell} {s : State} (h : s.core.pc.toNat + 1 < s.config.memSize) :
    ∃ e, effectOf (.ldi imm) s = .ok e ∧ e.newPC = s.core.pc.toNat + 2 :=
  ⟨_, by simp only [effectOf, operandCells_of_fit h]; rfl, rfl⟩

/-- Settles O16: the operand cell, then the next PC, then the completed instruction. -/
theorem ldiRule : Obligations.LdiRule := by
  refine fun imm s => ⟨rfl, rfl, ?operand, ?next, ?completes⟩
  case operand => exact fun h => exec_of_operandCells_error rfl (operandCells_of_first_missing 0 h)
  case next =>
    intro hoperand hbeyond
    obtain ⟨e, he, hpc⟩ := exists_effectOf_ldi (imm := imm) hoperand
    rw [← hpc] at hbeyond ⊢
    exact exec_of_newPC_beyond he hbeyond
  case completes =>
    intro hnext
    obtain ⟨e, he, hpc⟩ := exists_effectOf_ldi (imm := imm) (Nat.lt_of_succ_lt hnext)
    exact exec_eq_completed he (hpc ▸ hnext)

/-! The instructions with a data access (R101, R102; `42_arith_compare.md` R111 to R113). -/

/-- The instructions that access the cell at `addr` as data. -/
inductive AccessesData (addr : Addr) : Instr → Prop where
  | lda : AccessesData addr (.lda addr)
  | sta : AccessesData addr (.sta addr)
  | add : AccessesData addr (.add addr)
  | sub : AccessesData addr (.sub addr)
  | cmp : AccessesData addr (.cmp addr)

/-- A checked access with what follows it is a check of what follows. -/
theorem ite_ok_bind_pure {α β : Type} {p : Prop} [Decidable p] (v : α) (x : Raised) (f : α → β) :
    ((if p then .ok v else .error x) >>= fun m => pure (f m) : Except Raised β) = if p then .ok (f v) else .error x := by
  split_ifs <;> rfl

/-- Two operand cells, one access at `addr`, and the sequential next PC: the order of checks that the instructions with a data
access share (`40_step.md` R92). -/
theorem exists_effectOf_of_accessesData {addr : Addr} {i : Instr} (h : AccessesData addr i) (s : State) :
    ∃ e : Effect, e.newPC = s.core.pc.toNat + 3 ∧ effectOf i s = operandCells s 2 >>= fun _ =>
      if addr.toNat < s.config.memSize then .ok e else .error ⟨.addressOutOfRange, addr.toNat⟩ := by
  cases h <;> exact ⟨_, rfl, congrArg (operandCells s 2 >>= ·) (funext fun _ => ite_ok_bind_pure _ _ _)⟩

/-- With the operand cells and the data address inside memory only the next PC is left to be checked. -/
theorem exists_effectOf_of_accessesData_inside {addr : Addr} {i : Instr} (h : AccessesData addr i) {s : State}
    (hcells : s.core.pc.toNat + 2 < s.config.memSize) (haddr : addr.toNat < s.config.memSize) :
    ∃ e, effectOf i s = .ok e ∧ e.newPC = s.core.pc.toNat + 3 := by
  obtain ⟨e, hpc, he⟩ := exists_effectOf_of_accessesData h s
  rw [operandCells_of_fit hcells, if_pos haddr] at he
  exact ⟨e, he, hpc⟩

theorem dataInstructionErrors_of_accessesData {addr : Addr} {i : Instr} (h : AccessesData addr i) (s : State) :
    DataInstructionErrors i (opcodeOf i) addr s := by
  obtain ⟨_, _, he⟩ := exists_effectOf_of_accessesData h s
  obtain ⟨hfirst, hsecond⟩ := jumpOperandErrors_of_operandCells he
  refine ⟨hfirst, hsecond, ?data, ?next⟩
  case data =>
    intro hcells hbeyond
    rw [operandCells_of_fit hcells, if_neg (Nat.not_lt.mpr hbeyond)] at he
    exact exec_of_raise he
  case next =>
    intro hcells haddr hbeyond
    obtain ⟨e, he, hpc⟩ := exists_effectOf_of_accessesData_inside h hcells haddr
    rw [← hpc] at hbeyond ⊢
    exact exec_of_newPC_beyond he hbeyond

theorem exec_eq_completed_of_accessesData {addr : Addr} {i : Instr} (h : AccessesData addr i) {s : State}
    (hnext : s.core.pc.toNat + 3 < s.config.memSize) (haddr : addr.toNat < s.config.memSize) :
    exec i s = .next (completed i s) := by
  obtain ⟨e, he, hpc⟩ := exists_effectOf_of_accessesData_inside h (Nat.lt_of_succ_lt hnext) haddr
  exact exec_eq_completed he (hpc ▸ hnext)

/-- Settles O17: LDA has the errors of a data access, and else it is the completed instruction. -/
theorem ldaRule : Obligations.LdaRule :=
  fun _ s => ⟨rfl, rfl, dataInstructionErrors_of_accessesData .lda s, exec_eq_completed_of_accessesData .lda⟩

/-- Settles O18: STA has the errors of a data access, and else it is the completed instruction, whose memory holds ACC. -/
theorem staRule : Obligations.StaRule :=
  fun addr s => ⟨rfl, rfl, dataInstructionErrors_of_accessesData .sta s, fun hnext haddr =>
    ⟨exec_eq_completed_of_accessesData .sta hnext haddr, fun hwf => Memory.read_write_self hwf addr.toNat s.core.acc⟩⟩

/-! What an instruction leaves unchanged. -/

/-- Settles O25: an error step stores nothing, and the completed STA has written one cell. -/
theorem staFrame : Obligations.StaFrame := by
  intro addr s t hwf herr h
  rcases instructionIsAtomic _ s t h with ⟨a, rfl⟩ | ⟨rfl, _⟩
  case inl => exact ⟨fun _ _ => rfl, rfl, rfl, rfl, nofun, exec_frame h⟩
  case inr =>
    have hcell : (completed (.sta addr) s).core.mem.read addr.toNat = s.core.acc := Memory.read_write_self hwf _ _
    have hcompleted : (completed (.sta addr) s).core.errored = false := herr
    exact ⟨fun _ hne => Memory.read_write_ne _ _ hne, by simp [hcell, hcompleted], rfl, rfl, fun _ => ⟨rfl, rfl, rfl, rfl⟩,
      exec_frame h⟩

/-- Only STA writes memory (`10_state.md` R18). -/
theorem memAfter_of_ne_sta {i : Instr} (hi : ∀ a, i ≠ .sta a) (s : State) : memAfter i s = s.core.mem := by
  cases i with
  | sta a => exact absurd rfl (hi a)
  | _ => rfl

/-- Settles O26: an error step keeps every register and cell, and the completed instruction writes only what the tables of its
results say. -/
theorem nonStoringFrame : Obligations.NonStoringFrame := by
  intro i s t hi _ h
  rcases instructionIsAtomic i s t h with ⟨a, rfl⟩ | ⟨rfl, _⟩
  case inl => exact ⟨fun _ => rfl, fun _ => rfl, fun _ => rfl, nofun, exec_frame h⟩
  case inr =>
    refine ⟨?cells, ?acc, ?zf, fun _ => ⟨?halted, rfl, rfl, rfl⟩, exec_frame h⟩
    case cells => exact fun a => congrArg (Memory.read · a) (memAfter_of_ne_sta hi s)
    case acc => rintro (rfl | ⟨_, rfl⟩ | ⟨_, rfl⟩ | ⟨_, rfl⟩) <;> rfl
    case zf => rintro (rfl | ⟨_, rfl⟩ | ⟨_, rfl⟩) <;> rfl
    case halted => exact fun hne => by simp [completed, hne]

end Sys2Proof.Machine
end

section
/-!
The arithmetic and compare instructions (`42_arith_compare.md`): the results modulo 16, the Z that CMP and SUB share, and who
writes Z.
-/

namespace Sys2Proof.Machine

open Sys2Proof.Safety

/-! 4-bit results (R110). -/

/-- The sum modulo 16 names one cell. -/
theorem eq_add_of_toNat {a b r : Cell} (h : r.toNat = (a.toNat + b.toNat) % 16) : r = a + b :=
  BitVec.eq_of_toNat_eq (h.trans (BitVec.toNat_add a b).symm)

/-- The integer difference modulo 16 names one cell. -/
theorem eq_sub_of_toNat {a b r : Cell} (h : (r.toNat : Int) = ((a.toNat : Int) - b.toNat) % 16) : r = a - b := by
  apply BitVec.eq_of_toNat_eq
  rw [BitVec.toNat_sub]
  omega

/-! The arithmetic instructions and CMP (R111 to R113). -/

/-- Settles O19: ADD has the errors of a data access, and else it is the completed instruction, whose ACC is the sum. -/
theorem addRule : Obligations.AddRule := by
  refine fun addr s => ⟨rfl, rfl, dataInstructionErrors_of_accessesData .add s, ?completes⟩
  case completes =>
    intro hnext haddr r hr
    cases eq_add_of_toNat hr
    exact exec_eq_completed_of_accessesData .add hnext haddr

/-- Settles O20: SUB has the errors of a data access, and else it is the completed instruction, whose ACC is the difference. -/
theorem subRule : Obligations.SubRule := by
  refine fun addr s => ⟨rfl, rfl, dataInstructionErrors_of_accessesData .sub s, ?completes⟩
  case completes =>
    intro hnext haddr r hr
    cases eq_sub_of_toNat hr
    exact ⟨exec_eq_completed_of_accessesData .sub hnext haddr, sub_eq_zero⟩

/-- CMP compares by the difference that SUB keeps (R113). -/
theorem zAfter_cmp_eq_zAfter_sub (addr : Addr) (s : State) : zAfter (.cmp addr) s = zAfter (.sub addr) s :=
  decide_eq_decide.mpr sub_eq_zero.symm

/-- A data access whose address or next PC is beyond memory ends in an error step (`40_step.md` R92). -/
theorem exists_exec_eq_intoError_of_accessesData {addr : Addr} {i : Instr} (h : AccessesData addr i) {s : State}
    (hbeyond : ¬(s.core.pc.toNat + 3 < s.config.memSize ∧ addr.toNat < s.config.memSize)) :
    ∃ a, exec i s = .next (intoError .addressOutOfRange a (opcodeOf i) s) := by
  obtain ⟨hfirst, hsecond, hdata, hnext⟩ := dataInstructionErrors_of_accessesData h s
  by_cases hcell1 : s.config.memSize ≤ s.core.pc.toNat + 1
  · exact ⟨_, hfirst hcell1⟩
  by_cases hcell2 : s.config.memSize ≤ s.core.pc.toNat + 2
  · exact ⟨_, hsecond (Nat.lt_of_not_le hcell1) hcell2⟩
  by_cases haddr : s.config.memSize ≤ addr.toNat
  · exact ⟨_, hdata (Nat.lt_of_not_le hcell2) haddr⟩
  · exact ⟨_, hnext (Nat.lt_of_not_le hcell2) (Nat.lt_of_not_le haddr) (by omega)⟩

/-- Z after a data access: the completed instruction's inside memory, and the old one in an error step. -/
theorem zf_of_exec_accessesData {addr : Addr} {i : Instr} (h : AccessesData addr i) {s t : State} (ht : exec i s = .next t) :
    t.core.zf =
      if s.core.pc.toNat + 3 < s.config.memSize ∧ addr.toNat < s.config.memSize then zAfter i s else s.core.zf := by
  split_ifs with hfits
  · rw [exec_eq_completed_of_accessesData h hfits.1 hfits.2] at ht
    cases ht
    rfl
  · obtain ⟨a, ha⟩ := exists_exec_eq_intoError_of_accessesData h hfits
    rw [ha] at ht
    cases ht
    rfl

/-- Settles O21: CMP has the errors of a data access, and else it is the completed instruction; it completes where SUB does,
with the same Z. -/
theorem cmpRule : Obligations.CmpRule := by
  refine fun addr s => ⟨rfl, rfl, dataInstructionErrors_of_accessesData .cmp s, exec_eq_completed_of_accessesData .cmp, ?sub⟩
  case sub =>
    intro t u ht hu
    rw [zf_of_exec_accessesData .cmp ht, zf_of_exec_accessesData .sub hu, zAfter_cmp_eq_zAfter_sub]

/-! Who writes Z (R114). -/

/-- Z after an instruction: kept by an error step, and else the completed instruction's. -/
theorem zf_of_exec {i : Instr} {s t : State} (he : s.core.errored = false) (h : exec i s = .next t) :
    t.core.zf = if t.core.errored then s.core.zf else zAfter i s := by
  rcases instructionIsAtomic i s t h with ⟨a, rfl⟩ | ⟨rfl, _⟩
  · rfl
  · exact (if_neg (by simp [completed, he])).symm

/-- Settles O15: the table of Z of the completed instruction, the error steps of an instruction and of its fetch, and reset. -/
theorem zeroFlagWriters : Obligations.ZeroFlagWriters := by
  refine ⟨?exec, ?errorStep, fun _ => rfl⟩
  case exec =>
    intro i s t he h
    rw [zf_of_exec he h]
    cases i <;> rfl
  case errorStep =>
    intro s t he h herr
    rcases coreStep_cases h with ⟨_, rfl⟩ | ⟨_, i, _, _, hexec⟩ | ⟨_, _, _, _, rfl⟩
    · rfl
    · rw [zf_of_exec he hexec, if_pos herr]
    · rfl

end Sys2Proof.Machine
end

section
/-!
The control instructions (`43_control.md`): the one new PC that a jump or HLT chooses and checks, and the completed instruction.
-/

namespace Sys2Proof.Machine

open Sys2Proof.Safety

/-! The chosen new PC (`40_step.md` R84, R86; `43_control.md` R120). -/

/-- The instruction raises nothing on the way, and its new PC, still to be checked, is `p`. -/
def ChoosesPC (i : Instr) (s : State) (p : Nat) : Prop := ∃ e, effectOf i s = .ok e ∧ e.newPC = p

theorem ChoosesPC.exec_of_beyond {i : Instr} {s : State} {p : Nat} (h : ChoosesPC i s p) (hbeyond : s.config.memSize ≤ p) :
    exec i s = .next (intoError .addressOutOfRange p (opcodeOf i) s) := by
  obtain ⟨e, he, rfl⟩ := h
  exact exec_of_newPC_beyond he hbeyond

theorem ChoosesPC.exec_of_inside {i : Instr} {s : State} {p : Nat} (h : ChoosesPC i s p) (hinside : p < s.config.memSize) :
    exec i s = .next (completed i s) := by
  obtain ⟨e, he, rfl⟩ := h
  exact exec_eq_completed he hinside

/-- A jump's operand cells are all that it fetches: with them inside memory it raises nothing before the check of its new PC. -/
theorem choosesPC_of_operandCells {i : Instr} {s : State} {n p : Nat} {e : Effect}
    (he : effectOf i s = operandCells s n >>= fun _ => pure e) (hp : e.newPC = p)
    (hcells : s.core.pc.toNat + n < s.config.memSize) : ChoosesPC i s p :=
  ⟨e, by rw [he, operandCells_of_fit hcells]; rfl, hp⟩

/-! JMP (R121). -/

theorem choosesPC_jmp (addr : Addr) {s : State} (hcells : s.core.pc.toNat + 2 < s.config.memSize) :
    ChoosesPC (.jmp addr) s addr.toNat :=
  choosesPC_of_operandCells rfl rfl hcells

/-- Settles O22: the operand cells, then the target, then the completed instruction; the sequential address is never chosen. -/
theorem jmpRule : Obligations.JmpRule :=
  fun addr _ => ⟨rfl, rfl, jumpOperandErrors_of_operandCells rfl, fun hcells => (choosesPC_jmp addr hcells).exec_of_beyond,
    fun hcells => (choosesPC_jmp addr hcells).exec_of_inside⟩

/-! JZ (R122). -/

theorem choosesPC_jz_taken (addr : Addr) {s : State} (hz : s.core.zf = true)
    (hcells : s.core.pc.toNat + 2 < s.config.memSize) : ChoosesPC (.jz addr) s addr.toNat :=
  choosesPC_of_operandCells rfl (if_pos hz) hcells

theorem choosesPC_jz_notTaken (addr : Addr) {s : State} (hz : s.core.zf = false)
    (hcells : s.core.pc.toNat + 2 < s.config.memSize) : ChoosesPC (.jz addr) s (s.core.pc.toNat + 3) :=
  choosesPC_of_operandCells rfl (if_neg (Bool.eq_false_iff.mp hz)) hcells

theorem pcAfter_jz_taken (addr : Addr) {s : State} (hz : s.core.zf = true) : pcAfter (.jz addr) s = addr :=
  if_pos hz

theorem pcAfter_jz_notTaken (addr : Addr) {s : State} (hz : s.core.zf = false) : pcAfter (.jz addr) s = s.core.pc + 3 :=
  if_neg (Bool.eq_false_iff.mp hz)

/-- The completed instruction with its new PC written out. -/
theorem completed_eq_of_pcAfter {i : Instr} {s : State} {a : Addr} (h : pcAfter i s = a) :
    completed i s = { completed i s with core := { (completed i s).core with pc := a } } := by
  subst h; rfl

/-- Settles O23: the operand cells, then the address that Z chooses and no other, then the completed instruction. -/
theorem jzRule : Obligations.JzRule := by
  refine fun addr s => ⟨rfl, rfl, jumpOperandErrors_of_operandCells rfl, ?target, ?next, ?taken, ?notTaken⟩
  case target => exact fun hcells hz => (choosesPC_jz_taken addr hz hcells).exec_of_beyond
  case next => exact fun hcells hz => (choosesPC_jz_notTaken addr hz hcells).exec_of_beyond
  case taken =>
    intro hcells hz hinside
    rw [(choosesPC_jz_taken addr hz hcells).exec_of_inside hinside, completed_eq_of_pcAfter (pcAfter_jz_taken addr hz)]
    rfl
  case notTaken =>
    intro hnext hz
    rw [(choosesPC_jz_notTaken addr hz (Nat.lt_of_succ_lt hnext)).exec_of_inside hnext,
      completed_eq_of_pcAfter (pcAfter_jz_notTaken addr hz)]
    rfl

/-! HLT (R123). -/

/-- HLT has no operand cell and no data access, so only its next PC can fail. -/
theorem choosesPC_hlt (s : State) : ChoosesPC .hlt s (s.core.pc.toNat + 1) :=
  ⟨_, rfl, rfl⟩

/-- Settles O24: the next PC is checked, and the completed HLT is a halted core, on which `step()` is the no-op. -/
theorem hltRule : Obligations.HltRule :=
  fun s => ⟨rfl, rfl, (choosesPC_hlt s).exec_of_beyond, fun hinside =>
    ⟨completed .hlt s, (choosesPC_hlt s).exec_of_inside hinside, rfl, coreStep_of_halted rfl⟩⟩

end Sys2Proof.Machine
end

section
/-!
The engine's logic and the operations that run no pass (`44_gate_engine.md` R130 to R135, R140, R141, R144, R145).
-/

namespace Sys2Proof.Machine

/-! The three-valued logic (`44_gate_engine.md` R130 to R135). -/

theorem Tri.and_comm (a b : Tri) : a.and b = b.and a := by
  cases a <;> cases b <;> rfl

theorem Tri.and_assoc (a b c : Tri) : (a.and b).and c = a.and (b.and c) := by
  cases a <;> cases b <;> cases c <;> rfl

theorem Tri.or_comm (a b : Tri) : a.or b = b.or a := by
  cases a <;> cases b <;> rfl

theorem Tri.or_assoc (a b c : Tri) : (a.or b).or c = a.or (b.or c) := by
  cases a <;> cases b <;> cases c <;> rfl

theorem Tri.xor_comm (a b : Tri) : a.xor b = b.xor a := by
  cases a <;> cases b <;> rfl

theorem Tri.xor_assoc (a b c : Tri) : (a.xor b).xor c = a.xor (b.xor c) := by
  cases a <;> cases b <;> cases c <;> rfl

/-- Settles O45: each table entry by entry, and a one-input gate on the one bit it reads. -/
theorem threeValuedTables : Obligations.ThreeValuedTables := by
  refine ⟨⟨rfl, rfl, rfl⟩, ?oneInput, ?and, ?or, ?xor⟩
  case oneInput =>
    intro wires g p hp
    exact ⟨fun hbuf => by simp [Gate.value, hbuf, hp], fun hnot => by simp [Gate.value, hnot, hp]⟩
  case and => intro a b; cases a <;> cases b <;> rfl
  case or => intro a b; cases a <;> cases b <;> rfl
  case xor => intro a b; cases a <;> cases b <;> rfl

/-- Settles O46: the three operations commute and associate, so their folds do not see the order of the bits. -/
theorem inputOrderDoesNotMatter : Obligations.InputOrderDoesNotMatter := by
  intro wires g h htype hkind hperm
  have hbits := hperm.map (readPort wires)
  rcases hkind with hg | hg | hg
  · simpa only [Gate.value, ← htype, hg] using foldBits_perm Tri.and Tri.and_comm Tri.and_assoc hbits
  · simpa only [Gate.value, ← htype, hg] using foldBits_perm Tri.or Tri.or_comm Tri.or_assoc hbits
  · simpa only [Gate.value, ← htype, hg] using foldBits_perm Tri.xor Tri.xor_comm Tri.xor_assoc hbits

/-! Loading a circuit, reading and setting a wire (`44_gate_engine.md` R140, R141, R145). -/

/-- Settles O47: each operation on the outcome of the one check it makes. -/
theorem loadCircuitAndGetWireRules : Obligations.LoadCircuitAndGetWireRules := by
  refine fun cap c e id => ⟨?refused, ?taken, rfl, ?unknownWire, ?known⟩
  case refused => exact fun h => by simp [engineOp, loadCircuit, h]
  case taken => exact fun h => by simp [engineOp, loadCircuit, h]
  case unknownWire => exact fun h => by simp [engineOp, getWire, h]
  case known => exact fun w h => by simp [engineOp, getWire, h]

/-- A value of the wire's width replaces the bits of that wire (`44_gate_engine.md` R141). -/
theorem engineOp_setInputWire_of_fit (cap : Nat) {id : Nat} {value : List Tri} {c : Circuit} {w : Wire}
    (hw : c.wires[id]? = some w) (hwidth : value.length = w.width) :
    engineOp cap (.setInputWire id value) (some c) =
      (some { c with wires := c.wires.set id { w with bits := value }, stable := false }, .ok) := by
  simp [engineOp, setInputWire, hw, hwidth]

/-- Settles O48: the three refusals, and the one wire that is replaced. -/
theorem setInputWireRule : Obligations.SetInputWireRule := by
  refine fun cap id value => ⟨rfl, ?unknownWire, ?widthMismatch, ?set⟩
  case unknownWire => exact fun c h => by simp [engineOp, setInputWire, h]
  case widthMismatch => exact fun c w h hwidth => by simp [engineOp, setInputWire, h, hwidth]
  case set =>
    intro c w hw hwidth
    have hid : id < c.wires.length := (List.getElem?_eq_some_iff.mp hw).1
    exact ⟨_, engineOp_setInputWire_of_fit cap hw hwidth, List.getElem?_set_self hid,
      fun k hk => List.getElem?_set_ne hk.symm, rfl, rfl, rfl⟩

/-! The clock edge (`44_gate_engine.md` R144). -/

theorem Gate.clocked_of_combinational (wires : List Wire) {g : Gate} (hg : g.isDff = false) : g.clocked wires = g := by
  simp [Gate.clocked, hg]

theorem Gate.clocked_of_dff (wires : List Wire) {g : Gate} (hg : g.isDff = true) {d : Port} (hd : g.inputs.head? = some d) :
    g.clocked wires = { g with stored := some (readPort wires d) } := by
  simp [Gate.clocked, Gate.sample, hg, hd]

/-- A clock edge leaves the type, the ports and the id of every gate. -/
theorem Gate.clocked_frame (wires : List Wire) (g : Gate) :
    (g.clocked wires).type = g.type ∧ (g.clocked wires).inputs = g.inputs ∧ (g.clocked wires).outputs = g.outputs ∧
      (g.clocked wires).id = g.id := by
  unfold Gate.clocked
  split_ifs <;> exact ⟨rfl, rfl, rfl, rfl⟩

/-- Settles O56: the gates after the edge are the old ones, each clocked over the old wires. -/
theorem clockEdgeRule : Obligations.ClockEdgeRule := by
  refine fun cap => ⟨rfl, fun c => ⟨_, rfl, rfl, rfl, rfl, List.length_map _, ?gates⟩⟩
  intro k g hg
  have hclocked : (c.gates.map (Gate.clocked c.wires))[k]? = some (g.clocked c.wires) := by
    rw [List.getElem?_map, hg, Option.map_some]
  refine ⟨fun hcomb => ?_, fun d hdff hd => ?_⟩
  · rw [Gate.clocked_of_combinational c.wires hcomb] at hclocked
    exact hclocked
  · rw [Gate.clocked_of_dff c.wires hdff hd] at hclocked
    exact hclocked

end Sys2Proof.Machine
end

section
/-!
The evaluation order (`44_gate_engine.md` R138): what stands at each place of it, and that a clock edge does not change it.
-/

namespace Sys2Proof.Machine

open Sys2Proof.Safety

/-- Whether a gate waits for one of the gates left does not depend on how those are listed. -/
theorem ready_iff_of_perm {l l' : List Gate} (h : l.Perm l') (g : Gate) : Ready l g ↔ Ready l' g :=
  forall_congr' fun _ => imp_congr_left h.mem_iff

/-- Each gate of an order is the one picked from the gates from its place on, which the order only lists anew. -/
theorem exists_pickGate_of_orderGates : ∀ {n : Nat} {l placed left : List Gate} {g : Gate}, l.length = n →
    (l.map Gate.id).Pairwise (· < ·) → orderGates n l = placed ++ g :: left →
    ∃ rest, pickGate rest = some g ∧ rest.Perm (g :: left) ∧ (rest.map Gate.id).Pairwise (· < ·)
  | 0, _, _, _, _, _, _, h => by simp [orderGates] at h
  | n + 1, l, placed, left, g, hl, hrising, h => by
    obtain ⟨f, hpick, hf⟩ := pickGate_of_ne_nil (List.ne_nil_of_length_eq_add_one hl)
    have hnodup : (l.map Gate.id).Nodup := hrising.imp Nat.ne_of_lt
    have hperm := perm_cons_eraseP_id hf hnodup
    have hlength : (l.eraseP fun h => h.id == f.id).length = n := by
      have := hperm.length_eq
      rw [List.length_cons] at this
      omega
    have hrising' := hrising.sublist ((List.eraseP_sublist (p := fun h => h.id == f.id)).map Gate.id)
    simp only [orderGates, hpick] at h
    cases placed with
    | nil =>
      obtain ⟨rfl, rfl⟩ := List.cons.inj h
      exact ⟨l, hpick, hperm.trans ((orderGates_perm hlength (hrising'.imp Nat.ne_of_lt)).symm.cons f), hrising⟩
    | cons a placed => exact exists_pickGate_of_orderGates hlength hrising' (List.cons.inj h).2

/-- A clock edge changes no port and no id, so it does not change the order. -/
theorem evalOrder_map_clocked (wires : List Wire) (gates : List Gate) :
    evalOrder (gates.map (Gate.clocked wires)) = (evalOrder gates).map (Gate.clocked wires) := by
  have hcomb : combinational (gates.map (Gate.clocked wires)) = (combinational gates).map (Gate.clocked wires) := by
    simp [combinational, List.filter_map, Function.comp_def, Gate.isDff, Gate.clocked_frame]
  unfold evalOrder
  rw [hcomb, List.length_map]
  exact orderGates_map (fun g => (Gate.clocked_frame wires g).2) _ _

/-- Settles O49: each place through the pick that filled it, the topological order through the ranks of the gates, and the
operations through what each of them can leave. -/
theorem evaluationOrderRule : Obligations.EvaluationOrderRule := by
  refine ⟨fun c hwf => ⟨orderGates_perm rfl (combinational_ids_nodup hwf), ?place, ?topological⟩, ?fixed⟩
  case place =>
    intro placed left g horder
    obtain ⟨rest, hpick, hperm, hrising⟩ := exists_pickGate_of_orderGates rfl (combinational_ids_rising hwf) horder
    simpa only [hperm.mem_iff, ready_iff_of_perm hperm] using pickGate_spec hrising hpick
  case topological =>
    rintro ⟨rank, hrank⟩
    exact orderGates_topological rfl (combinational_ids_nodup hwf) hrank
  case fixed =>
    intro cap op c c' r hload h
    rcases engineOp_cases (congrArg Prod.fst h) with
      hsame | ⟨n, hop, _⟩ | ⟨_, _, _, _, hc, _, _, _, rfl⟩ | ⟨_, hc, _, rfl⟩ | ⟨_, hc, _, rfl⟩
    · cases hsame; rfl
    · exact absurd hop (hload n)
    · cases hc; rfl
    · cases hc; rfl
    · cases hc
      simp [evalOrder_map_clocked, Function.comp_def, Gate.clocked_frame]

end Sys2Proof.Machine
end

section
/-!
`settle` (`44_gate_engine.md` R142, R143, R146, R148): the value a driven bit ends with is that of the last gate that drives it.
-/

namespace Sys2Proof.Machine

open Sys2Proof.Safety

/-! The result of `settle`, from what its passes came to. -/

theorem engineOp_settle_of_converged {cap n : Nat} {c : Circuit} {w : List Wire} (h : settlePasses cap c = ⟨n, w, true⟩) :
    engineOp cap .settle (some c) =
      (some { c with wires := w, stable := true }, .settled { c with wires := w, stable := true }) := by
  simp [engineOp, settle, h]

theorem engineOp_settle_of_capped {cap n : Nat} {c : Circuit} {w : List Wire} (h : settlePasses cap c = ⟨n, w, false⟩) :
    engineOp cap .settle (some c) =
      (some { c with wires := w, stable := false }, .nonConvergence n { c with wires := w, stable := false }) := by
  simp [engineOp, settle, h]

/-- Settling leaves the wires of the passes, whatever it answers. -/
theorem wires_of_engineOp_settle {cap : Nat} {c c' : Circuit} {r : EngineResult}
    (h : engineOp cap .settle (some c) = (some c', r)) : c'.wires = (settlePasses cap c).wires :=
  congrArg Circuit.wires (Option.some.inj ((congrArg Prod.fst h).symm.trans (settle_some cap c)))

/-- Settles O50: the passes counted to the first that changes nothing, or to the cap. -/
theorem settleRule : Obligations.SettleRule := by
  refine fun cap => ⟨rfl, ?_⟩
  rintro c _ _ rfl rfl
  refine ⟨fun n hn hlast hbefore => ?_, fun hall => ?_⟩
  · exact engineOp_settle_of_converged (runPasses_of_converging _ cap n 0 _ hn hlast hbefore)
  · have h := engineOp_settle_of_capped (c := c) (runPasses_of_changing _ cap 0 _ hall)
    rwa [Nat.zero_add] at h

/-- A pass that changes nothing is the last one. -/
theorem runPasses_of_unchanged {order : List Gate} {w : List Wire} (h : (pass order w).2 = false) (left n : Nat) :
    runPasses order (left + 1) n w = ⟨n + 1, w, true⟩ := by
  simp [runPasses, h, (pass_unchanged h).1]

/-- A pass that changes something is followed by the next. -/
theorem runPasses_of_changed {order : List Gate} {w : List Wire} (h : (pass order w).2 = true) (left n : Nat) :
    runPasses order (left + 1) n w = runPasses order left (n + 1) (pass order w).1 := by
  simp [runPasses, h]

/-! Bits that no gate drives (`44_gate_engine.md` R148). -/

/-- The passes keep every bit that no combinational gate drives as the DFFs left it (`44_gate_engine.md` R142). -/
theorem readPort_settlePasses_of_not_driven (cap : Nat) {c : Circuit} {p : Port}
    (hp : ∀ g ∈ combinational c.gates, p ∉ g.outputs) :
    readPort (settlePasses cap c).wires p = readPort (driveDffs c.gates c.wires) p := by
  refine runPasses_keeps (P := fun w => readPort w p = readPort (driveDffs c.gates c.wires) p)
    (fun w g hg q hq v hw => ?_) rfl
  have hpq : p ≠ q := fun e => hp g (evalOrder_subset hg) (e ▸ hq)
  exact (readPort_writePort_ne w v hpq).trans hw

/-- Settles O55: neither the DFFs' loop nor the passes write the bit. -/
theorem undrivenBitIsKept : Obligations.UndrivenBitIsKept := by
  intro cap c p hp c' r h
  calc readPort c'.wires p
      = readPort (settlePasses cap c).wires p := by rw [wires_of_engineOp_settle h]
    _ = readPort (driveDffs c.gates c.wires) p :=
        readPort_settlePasses_of_not_driven cap fun g hg => hp g (List.mem_of_mem_filter hg)
    _ = readPort c.wires p := driveGates_out fun g hg => hp g (List.mem_of_mem_filter hg)

/-! Bits that a gate drives (`44_gate_engine.md` R139). -/

/-- Among gates one of which drives a bit, one is the last to drive it. -/
theorem exists_last_driver {p : Port} : ∀ {gs : List Gate} {g : Gate}, g ∈ gs → p ∈ g.outputs →
    ∃ before f after, gs = before ++ f :: after ∧ p ∈ f.outputs ∧ ∀ h ∈ after, p ∉ h.outputs
  | a :: gs, g, hg, hp => by
    by_cases hlater : ∃ h ∈ gs, p ∈ h.outputs
    · obtain ⟨h, hh, hph⟩ := hlater
      obtain ⟨before, f, after, rfl, hf⟩ := exists_last_driver hh hph
      exact ⟨a :: before, f, after, rfl, hf⟩
    · have hnone : ∀ h ∈ gs, p ∉ h.outputs := fun h hh hph => hlater ⟨h, hh, hph⟩
      rcases List.mem_cons.mp hg with rfl | hg
      · exact ⟨[], g, gs, rfl, hp, hnone⟩
      · exact absurd hp (hnone g hg)

/-- A bit ends with the value that its last driver had at its turn. -/
theorem readPort_driveGates_of_last {before after : List Gate} {f : Gate} {p : Port} {acc : List Wire × Bool}
    (hbit : HasBit p acc.1) (hp : p ∈ f.outputs) (hafter : ∀ h ∈ after, p ∉ h.outputs) :
    readPort ((before ++ f :: after).foldl driveGate acc).1 p = f.value (before.foldl driveGate acc).1 := by
  have hturn : HasBit p (before.foldl driveGate acc).1 :=
    driveGates_keeps (P := HasBit p) (fun _ _ _ _ _ _ h => hasBit_writePort h) hbit
  rw [List.foldl_append, List.foldl_cons, driveGates_out hafter]
  exact drivePorts_in hturn hp

/-- A bit that a DFF drives is set by one DFF, the last that drives it, to a value that depends on no wire
(`44_gate_engine.md` R136). -/
theorem exists_dff_readPort_driveDffs {gates : List Gate} {g : Gate} {p : Port} (hg : g ∈ gates)
    (hdff : g.isDff = true) (hp : p ∈ g.outputs) :
    ∃ f ∈ gates, f.isDff = true ∧ p ∈ f.outputs ∧ ∀ w, HasBit p w → readPort (driveDffs gates w) p = f.value w := by
  obtain ⟨before, f, after, hsplit, hpf, hafter⟩ := exists_last_driver (List.mem_filter.mpr ⟨hg, hdff⟩) hp
  obtain ⟨hf, hfdff⟩ : f ∈ gates ∧ f.isDff = true := List.mem_filter.mp (by rw [hsplit]; simp)
  refine ⟨f, hf, hfdff, hpf, fun w hbit => ?_⟩
  unfold driveDffs
  rw [hsplit, readPort_driveGates_of_last hbit hpf hafter]
  exact dff_value_congr hfdff _ _

/-- A DFF of a well-formed circuit has a stored bit and drives it (`10_state.md` R26, `44_gate_engine.md` R136). -/
theorem stored_eq_some_value {c : Circuit} (hwf : c.wellFormed = true) {g : Gate} (hg : g ∈ c.gates) (hdff : g.isDff = true)
    (w : List Wire) : g.stored = some (g.value w) := by
  simp only [Circuit.wellFormed, Gate.wellFormed, Bool.and_eq_true, List.all_eq_true] at hwf
  obtain ⟨_, hgates⟩ := hwf
  obtain ⟨⟨⟨_, hstored⟩, _⟩, _⟩ := hgates g hg
  obtain ⟨b, hb⟩ : ∃ b, g.stored = some b := Option.isSome_iff_exists.mp (by simpa [Gate.storedOk, hdff] using hstored)
  have htype : g.type = .dff := by simpa [Gate.isDff] using hdff
  simp [Gate.value, htype, hb]

/-- The wires at which the passes converged give every combinational output bit its gate's value (`10_state.md` R28). -/
theorem consistent_of_converged {cap : Nat} {c : Circuit} (hwf : c.wellFormed = true)
    (h : (settlePasses cap c).converged = true) :
    ∀ g ∈ combinational c.gates, ∀ p ∈ g.outputs,
      readPort (settlePasses cap c).wires p = g.value (settlePasses cap c).wires :=
  fun g hg => (pass_unchanged (runPasses_converged h)).2 g ((mem_evalOrder hwf g).mpr hg)

/-- Settles O51: the last pass changed nothing, and no pass writes a bit that only a DFF drives. -/
theorem settledCircuitIsConsistent : Obligations.SettledCircuitIsConsistent := by
  intro cap c c' hwf
  refine ⟨fun h => ?_, fun r h g hg hdff p hp hsole => ?_⟩
  · obtain ⟨hconverged, rfl⟩ := settle_eq_settled h
    exact ⟨rfl, consistent_of_converged hwf hconverged⟩
  · obtain ⟨f, hf, _, hpf, hvalue⟩ := exists_dff_readPort_driveDffs hg hdff hp
    obtain rfl := hsole f hf hpf
    have hfree : ∀ h ∈ combinational c.gates, p ∉ h.outputs := by
      intro h hh hph
      obtain ⟨hhg, hcomb⟩ := List.mem_filter.mp hh
      simp [hsole h hhg hph, hdff] at hcomb
    rw [wires_of_engineOp_settle h, readPort_settlePasses_of_not_driven cap hfree,
      hvalue c.wires (hasBit_of_wellFormed hwf hg hp)]
    exact stored_eq_some_value hwf hg hdff _

/-! Circuits without a combinational cycle (`44_gate_engine.md` R138, R142). -/

/-- Gates in topological order, none of which feeds itself and no two of which drive one bit, reach their values in one pass: a
gate's inputs are not written at its turn or after it, nor its outputs after it. -/
theorem pass_consistent_of_topological {order : List Gate} {w : List Wire}
    (hbits : ∀ g ∈ order, ∀ p ∈ g.outputs, HasBit p w)
    (htopological : order.Pairwise fun g h => feeds h g = false) (hself : ∀ g ∈ order, feeds g g = false)
    (hsingle : ∀ g ∈ order, ∀ h ∈ order, ∀ p, p ∈ g.outputs → p ∈ h.outputs → g = h) :
    ∀ g ∈ order, ∀ p ∈ g.outputs, readPort (pass order w).1 p = g.value (pass order w).1 := by
  intro g hg p hp
  obtain ⟨before, f, after, hsplit, hpf, hafter⟩ := exists_last_driver hg hp
  obtain rfl : g = f := hsingle g hg f (by simp [hsplit]) p hp hpf
  have hfeeds : ∀ h ∈ g :: after, feeds h g = false := by
    rw [hsplit, List.pairwise_append, List.pairwise_cons] at htopological
    obtain ⟨_, ⟨hlater, _⟩, _⟩ := htopological
    exact List.forall_mem_cons.mpr ⟨hself g hg, hlater⟩
  have hinputs : ∀ q ∈ g.inputs, readPort (pass order w).1 q = readPort (before.foldl driveGate (w, false)).1 q := by
    intro q hq
    unfold pass
    rw [hsplit, List.foldl_append]
    exact driveGates_out fun h hh hqh => not_mem_inputs_of_not_feeds (hfeeds h hh) q hqh hq
  calc readPort (pass order w).1 p
      = g.value (before.foldl driveGate (w, false)).1 := by
        unfold pass
        rw [hsplit, readPort_driveGates_of_last (hbits g hg p hp) hp hafter]
    _ = g.value (pass order w).1 := (value_congr hinputs).symm

/-- In such a circuit a pass changes nothing after another one (`44_gate_engine.md` R142). -/
theorem pass_after_pass_unchanged {c : Circuit} (hwf : c.wellFormed = true) (hacyclic : Acyclic c.gates)
    (hsingle : SingleDriver c.gates) {w : List Wire} (hshape : SameShape c.wires w) :
    (pass (evalOrder c.gates) (pass (evalOrder c.gates) w).1).2 = false := by
  obtain ⟨rank, hrank⟩ := hacyclic
  have hconsistent := pass_consistent_of_topological (w := w)
    (fun g hg p hp => hasBit_of_sameShape hshape
      (hasBit_of_wellFormed hwf (List.mem_of_mem_filter (evalOrder_subset hg)) hp))
    (orderGates_topological rfl (combinational_ids_nodup hwf) hrank)
    (fun g hg => Bool.eq_false_iff.mpr fun hf =>
      lt_irrefl _ (hrank g (evalOrder_subset hg) g (evalOrder_subset hg) hf))
    (fun g hg h hh => hsingle g (evalOrder_subset hg) h (evalOrder_subset hh))
  rw [pass_of_consistent hconsistent]

/-- The DFFs' loop keeps the shape of the wires. -/
theorem sameShape_driveDffs (gates : List Gate) (w : List Wire) : SameShape w (driveDffs gates w) :=
  driveGates_keeps (P := SameShape w) (acc := (w, false))
    (fun u _ _ p _ v hu => hu.trans (sameShape_writePort u p v)) (SameShape.refl w)

/-- Settles O52: the first pass changes nothing, or the second does not. -/
theorem acyclicCircuitSettlesInTwoPasses : Obligations.AcyclicCircuitSettlesInTwoPasses := by
  intro cap c hcap hwf hacyclic hsingle
  have key : ∃ n w, settlePasses cap c = ⟨n, w, true⟩ ∧ n ≤ 2 := by
    obtain ⟨m, rfl⟩ := Nat.exists_eq_add_of_le' hcap
    have hsecond := pass_after_pass_unchanged hwf hacyclic hsingle (sameShape_driveDffs c.gates c.wires)
    cases hfirst : (pass (evalOrder c.gates) (driveDffs c.gates c.wires)).2 with
    | false => exact ⟨_, _, runPasses_of_unchanged hfirst _ 0, by decide⟩
    | true =>
      exact ⟨_, _, (runPasses_of_changed hfirst _ 0).trans (runPasses_of_unchanged hsecond m 1), le_refl 2⟩
  obtain ⟨n, w, hpasses, hn⟩ := key
  exact ⟨by rw [hpasses]; exact hn, _, engineOp_settle_of_converged hpasses, rfl⟩

/-- Settles O53, by induction on the rank of the gate that drives the bit. -/
theorem acyclicFixpointIsUnique : Obligations.AcyclicFixpointIsUnique := by
  rintro gates w w' ⟨rank, hrank⟩ hw hw' hfree p
  have driven : ∀ n, ∀ g ∈ combinational gates, rank g = n → ∀ p ∈ g.outputs, readPort w p = readPort w' p := by
    intro n
    induction n using Nat.strong_induction_on with
    | _ n ih =>
      rintro g hg rfl p hp
      rw [hw g hg p hp, hw' g hg p hp]
      refine value_congr fun q hq => ?_
      by_cases hdriven : ∃ h ∈ combinational gates, q ∈ h.outputs
      · obtain ⟨h, hh, hqh⟩ := hdriven
        have hfeeds : feeds h g = true := by
          simpa [feeds] using ⟨q, hqh, hq⟩
        exact ih (rank h) (hrank h hh g hg hfeeds) h hh rfl q hqh
      · exact hfree q fun h hh hqh => hdriven ⟨h, hh, hqh⟩
  by_cases hdriven : ∃ g ∈ combinational gates, p ∈ g.outputs
  · obtain ⟨g, hg, hp⟩ := hdriven
    exact driven (rank g) g hg rfl p hp
  · exact hfree p fun g hg hp => hdriven ⟨g, hg, hp⟩

/-! Settling twice (`44_gate_engine.md` R146). -/

/-- The DFFs' loop of a second `settle` finds their bits as the first one left them, also where two DFFs drive one bit. -/
theorem driveDffs_settlePasses (cap : Nat) {c : Circuit} (hwf : c.wellFormed = true) (hown : DffBitsOwn c.gates) :
    driveDffs c.gates (settlePasses cap c).wires = (settlePasses cap c).wires := by
  refine (sameShape_driveDffs _ _).ext fun p hbit => ?_
  by_cases hdriven : ∃ g ∈ c.gates, g.isDff = true ∧ p ∈ g.outputs
  · obtain ⟨g, hg, hdff, hp⟩ := hdriven
    obtain ⟨f, _, hfdff, _, hvalue⟩ := exists_dff_readPort_driveDffs hg hdff hp
    have hfree : ∀ h ∈ combinational c.gates, p ∉ h.outputs := by
      intro h hh
      obtain ⟨hhg, hcomb⟩ := List.mem_filter.mp hh
      exact hown g hg h hhg hdff (by simpa using hcomb) p hp
    calc readPort (driveDffs c.gates (settlePasses cap c).wires) p
        = f.value (settlePasses cap c).wires := hvalue _ hbit
      _ = f.value c.wires := dff_value_congr hfdff _ _
      _ = readPort (driveDffs c.gates c.wires) p := (hvalue _ (hasBit_of_wellFormed hwf hg hp)).symm
      _ = readPort (settlePasses cap c).wires p := (readPort_settlePasses_of_not_driven cap hfree).symm
  · refine driveGates_out fun g hg hp => hdriven ?_
    obtain ⟨hgg, hdff⟩ := List.mem_filter.mp hg
    exact ⟨g, hgg, hdff, hp⟩

/-- Passes that converged were at least one. -/
theorem exists_cap_eq_succ_of_converged {cap : Nat} {c : Circuit} (h : (settlePasses cap c).converged = true) :
    ∃ m, cap = m + 1 := by
  cases cap with
  | zero => cases h
  | succ m => exact ⟨m, rfl⟩

/-- Settles O54: the DFFs write what is there, and the first pass is one that changes nothing. -/
theorem settleIsIdempotent : Obligations.SettleIsIdempotent := by
  intro cap c c' hwf hown h
  obtain ⟨hconverged, rfl⟩ := settle_eq_settled h
  have hpasses : settlePasses cap { c with wires := (settlePasses cap c).wires, stable := true } =
      ⟨1, (settlePasses cap c).wires, true⟩ := by
    have hdffs := driveDffs_settlePasses cap hwf hown
    have hpass : (pass (evalOrder c.gates) (settlePasses cap c).wires).2 = false := runPasses_converged hconverged
    obtain ⟨m, rfl⟩ := exists_cap_eq_succ_of_converged hconverged
    rw [settlePasses, hdffs]
    exact runPasses_of_unchanged hpass m 0
  exact ⟨engineOp_settle_of_converged hpasses, by rw [hpasses]⟩

end Sys2Proof.Machine
end

section
/-!
The rules of the commands and of the tick (`45_controller.md` R160 to R180), and that emitted events stay as they are.
-/

namespace Sys2Proof.Machine

open Sys2Proof.Safety

/-! What an emission adds to the event channel (R161, R177). -/

/-- An emission on a state with the events of another one keeps them as the first ones of the channel. -/
theorem events_prefix_of_emit {e : Event} {s u t : State} (h : emit e u = .next t)
    (hu : u.controller.events = s.controller.events) : s.controller.events <+: t.controller.events := by
  obtain ⟨_, rfl⟩ := emit_eq_next.mp h
  exact hu ▸ List.prefix_append _ _

/-- A batch keeps the events emitted before it: the steps of the core touch no event, and what ends it emits. -/
theorem events_prefix_of_batch {n : Nat} {s t : State} (h : batch n s = .next t) :
    s.controller.events <+: t.controller.events := by
  obtain ⟨k, u, _, hu, hend⟩ := batch_cases h
  obtain ⟨_, _, hcontroller, _⟩ := coreSteps_frame hu
  have hevents : u.controller.events = s.controller.events := congrArg Controller.events hcontroller
  rcases hend with ⟨_, ht⟩ | ⟨_, _, _, ht⟩ | ⟨_, ht⟩
  · exact events_prefix_of_emit ht hevents
  · exact hevents ▸ (List.prefix_append _ _).trans (events_prefix_of_emit ht rfl)
  · exact events_prefix_of_emit ht hevents

/-- A tick keeps the events emitted before it. -/
theorem events_prefix_of_tick {s t : State} (h : tick s = .next t) : s.controller.events <+: t.controller.events := by
  unfold tick at h
  split_ifs at h
  · exact events_prefix_of_batch h
  · cases h; exact List.prefix_rfl

/-- STEP keeps the events emitted before it. -/
theorem events_prefix_of_commandStep {s t : State} (h : commandStep s = .next t) :
    s.controller.events <+: t.controller.events := by
  obtain ⟨u, hu, h⟩ := andThen_eq_next.mp h
  obtain ⟨_, _, hcontroller, _⟩ := coreStep_frame hu
  rw [stopIfHalted_eq_setRunning] at h
  exact events_prefix_of_emit h (by simp [hcontroller])

/-- Every command keeps the events emitted before it. -/
theorem events_prefix_of_command {c : Command} {s t : State} (h : command c s = .next t) :
    s.controller.events <+: t.controller.events := by
  cases c with
  | loadProgram words start => exact events_prefix_of_emit h (by simp)
  | step => exact events_prefix_of_commandStep h
  | run speed =>
    simp only [command, commandRun] at h
    split_ifs at h
    · cases h; exact List.prefix_rfl
    · exact events_prefix_of_emit h rfl
    · cases h; exact List.prefix_rfl
  | stop => exact events_prefix_of_emit h rfl
  | reset => exact events_prefix_of_emit h rfl
  | getState => exact events_prefix_of_emit h rfl
  | setSpeed speed =>
    simp only [command, commandSetSpeed] at h
    split_ifs at h <;> cases h <;> exact List.prefix_rfl
  | bpAdd a => cases h; exact List.prefix_rfl
  | bpRemove a => cases h; exact List.prefix_rfl
  | bpQuery => exact events_prefix_of_emit h rfl

/-- Every input but the receipt of an event keeps the events emitted before it. -/
theorem events_prefix_of_input {i : Input} {s t : State} (hi : i ≠ .receiveEvent) (h : input i s = .next t) :
    s.controller.events <+: t.controller.events := by
  cases i with
  | send c =>
    simp only [input, sendCommand] at h
    split_ifs at h
    cases h; exact List.prefix_rfl
  | takeCommand =>
    simp only [input, takeCommand] at h
    split at h
    · cases h; exact List.prefix_rfl
    · exact (events_prefix_of_command h :)
  | tick => exact events_prefix_of_tick h
  | receiveEvent => exact absurd rfl hi
  | engine op => cases h; exact List.prefix_rfl

/-- Settles O44: a step is the effect of one input, and only the receipt of an event takes one out of the channel. -/
theorem emittedEventsNeverChange : Obligations.EmittedEventsNeverChange := by
  intro s t h
  cases hs : s.inputs with
  | nil =>
    rw [step_of_no_input hs] at h
    cases h
    exact ⟨fun _ => List.prefix_rfl, nofun⟩
  | cons i rest =>
    rw [step_of_input hs] at h
    simp only [List.head?_cons, ne_eq, Option.some.injEq]
    refine ⟨fun hi => (events_prefix_of_input hi h :), ?_⟩
    rintro rfl
    cases h; rfl

/-! The commands (R165 to R172, R176). -/

/-- With room in the channel one STATE_UPDATE of the state is appended. -/
theorem update_of_room {s : State} (h : RoomFor 1 s) :
    update s = .next (withEvents [.stateUpdate (snapshot s)] s) :=
  emit_of_room _ h

/-- Where `RESET_CLEARS_MEMORY` holds, `reset()` is `init()` (`70_reset_and_hazards.md` R231). -/
theorem resetCore_core_of_clears {s : State} (h : s.config.resetClearsMemory = true) :
    (resetCore s).core = IsaCore.init := by
  simp only [resetCore, h, if_true]
  rfl

/-- Settles O34: a load of the reset core is one of its two results, and the report that follows fits its status. -/
theorem loadProgramCommandRule : Obligations.LoadProgramCommandRule := by
  rintro words start s _ hroom rfl
  have hclears (h : s.config.resetClearsMemory = true) : (resetCore (setRunning false s)).core = IsaCore.init :=
    resetCore_core_of_clears h
  rcases loadProgram_cases words (start.getD 0) (resetCore (setRunning false s)) with
    ⟨hfits, hload⟩ | ⟨hbeyond, hload⟩ <;> simp only [command, commandLoadProgram, hload]
  · refine ⟨rfl, rfl, ?empty, fun h => absurd hfits h.not_ge, fun _ => ?reported, fun h => absurd hfits h.not_ge⟩
    case empty =>
      rintro rfl _ h
      exact hclears h
    case reported => exact report_of_room hroom (reportEvent_of_ready rfl rfl)
  · refine ⟨rfl, rfl, ?empty, fun _ h a => ?zeros, fun h => absurd h hbeyond.not_ge, fun _ => ?reported⟩
    case empty =>
      rintro rfl h
      exact absurd h hbeyond.not_ge
    case zeros => rw [IsaCore.raise_mem, hclears h]; exact Memory.read_nil a
    case reported => exact report_of_room hroom (reportEvent_of_errored rfl)

/-- Settles O35: the core's step leaves the controller as it was, and the report that follows appends one event. -/
theorem stepCommandRule : Obligations.StepCommandRule := by
  intro s t hroom ht
  have hstep : command .step s = report (stopIfHalted t) := by simp only [command, commandStep, ht, andThen]
  obtain ⟨hconfig, _, hcontroller, _⟩ := coreStep_frame ht
  refine ⟨fun hh => ?halted, fun hh => ?ready, reportEvent (stopIfHalted t), _, ?oneEvent, rfl⟩
  case halted => rw [hstep, stopIfHalted, if_pos hh]
  case ready => rw [hstep, stopIfHalted, hh]; rfl
  case oneEvent =>
    rw [hstep, ← hcontroller, stopIfHalted_eq_setRunning]
    refine report_of_room ?_ rfl
    simpa [RoomFor, hconfig, hcontroller] using hroom

/-- Settles O36: RUN by the running bit and then by `halted`, SET_SPEED by the running bit. -/
theorem runAndSetSpeedCommandRules : Obligations.RunAndSetSpeedCommandRules := by
  refine fun speed s => ⟨?runRunning, ?runDone, ?runReady, ?speedRunning, ?speedIdle⟩
  case runRunning => exact fun hrun => if_pos hrun
  case runDone => intro hidle hh; simp [command, commandRun, hidle, hh]
  case runReady => intro hidle hh; simp [command, commandRun, hidle, hh]
  case speedRunning => exact fun hrun => if_pos hrun
  case speedIdle => intro hidle; simp [command, commandSetSpeed, hidle]

/-- In Idle, leaving Running changes nothing. -/
theorem setRunning_false_of_idle {s : State} (h : s.controller.running = false) : setRunning false s = s := by
  rw [← h]; rfl

/-- Settles O37: both commands are one update, STOP's after it has left Running. -/
theorem stopAndGetStateCommandRules : Obligations.StopAndGetStateCommandRules := by
  intro s hroom
  have hstop : command .stop s = _ := update_of_room (s := setRunning false s) hroom
  exact ⟨hstop, fun hidle => setRunning_false_of_idle hidle ▸ hstop, update_of_room hroom⟩

/-- Settles O38: the update follows the stop and the reset of the core. -/
theorem resetCommandRule : Obligations.ResetCommandRule :=
  fun s hroom => ⟨resetCore (setRunning false s), update_of_room hroom, rfl, rfl, rfl⟩

/-- Removing an address that is absent changes nothing (`10_state.md` R30). -/
theorem removeBreakpoint_of_not_mem {a : Addr} {bs : List Addr} (h : a ∉ bs) : removeBreakpoint a bs = bs :=
  List.filter_eq_self.mpr fun _ hb => bne_iff_ne.mpr fun hba => h (hba ▸ hb)

/-- Settles O39: the three commands are the two operations of the set and an update. -/
theorem breakpointCommandRules : Obligations.BreakpointCommandRules := by
  intro a s hrising
  refine ⟨⟨_, rfl, ?added, ?present⟩, ⟨_, rfl, ?removed, ?absent⟩, fun hroom => ⟨update_of_room hroom, rfl⟩⟩
  case added => exact fun b => mem_addBreakpoint a b _
  case present => exact addBreakpoint_of_mem a hrising
  case removed => exact fun b => mem_removeBreakpoint a b _
  case absent => exact removeBreakpoint_of_not_mem

/-! The tick (R168, R173 to R175). -/

/-- An instruction that halts the core ends the batch with a report, whatever the breakpoints (R173). -/
theorem batch_of_halting {u t : State} (n : Nat) (ht : coreStep u = .next t) (hh : t.core.halted = true) :
    batch (n + 1) u = report (setRunning false t) := by
  simp only [batch, ht, andThen, hh, if_true]

/-- An instruction that leads to a breakpoint ends the batch with its two events (R174). -/
theorem batch_of_breakpoint {u t : State} (n : Nat) (ht : coreStep u = .next t) (hh : t.core.halted = false)
    (hb : t.core.pc ∈ t.controller.breakpoints) :
    batch (n + 1) u = andThen (emit (.breakpointHit t.core.pc) (setRunning false t)) update := by
  simp [batch, ht, andThen, hh, hb]

/-- A tick whose instructions before the `k`th meet neither halt nor breakpoint is the batch from its `k`th instruction on. -/
theorem exists_tick_eq_batch_last {s t : State} {n k : Nat} (hrun : s.controller.running = true)
    (hn : n = if s.controller.speed = 0 then s.config.fastestBatch else s.controller.speed)
    (hpos : 0 < k) (hkn : k ≤ n) (ht : coreSteps k s = some t)
    (hbefore : ∀ j u, 0 < j → j < k → coreSteps j s = some u →
      u.core.halted = false ∧ u.core.pc ∉ s.controller.breakpoints) :
    ∃ m u, coreStep u = .next t ∧ tick s = batch (m + 1) u := by
  obtain ⟨j, rfl⟩ := Nat.exists_eq_add_of_le' hpos
  obtain ⟨m, rfl⟩ := Nat.exists_eq_add_of_le hkn
  obtain ⟨u, hu, hlast⟩ := coreSteps_succ_last ht
  refine ⟨m, u, hlast, ?_⟩
  calc tick s
    _ = batch (j + (m + 1)) s := by rw [tick_eq_batch hrun hn]; congr 1; omega
    _ = batch (m + 1) u := batch_of_coreSteps hu fun i v hi hij => hbefore i v hi (by omega)

/-- Settles O40: the batch is a run of steps of the core, which leave the controller as it was, and then an update. -/
theorem uninterruptedTickRunsWholeBatch : Obligations.UninterruptedTickRunsWholeBatch := by
  refine ⟨fun s hidle => by simp [tick, hidle], fun s t n hrun hroom hn ht hbefore => ?_⟩
  obtain ⟨hconfig, _, hcontroller, _⟩ := coreSteps_frame ht
  have hroom : RoomFor 1 t := by simpa [RoomFor, hconfig, hcontroller] using hroom
  refine ⟨?_, hcontroller ▸ hrun⟩
  calc tick s
    _ = batch (n + 0) s := tick_eq_batch hrun hn
    _ = update t := batch_of_coreSteps ht hbefore
    _ = .next (withEvents [.stateUpdate (snapshot t)] t) := update_of_room hroom

/-- Settles O41: the batch is at the instruction that halts the core. -/
theorem haltEndsTheRun : Obligations.HaltEndsTheRun := by
  intro s t n k hrun hn hpos hkn ht hh hbefore
  obtain ⟨m, u, hlast, htick⟩ := exists_tick_eq_batch_last hrun hn hpos hkn ht hbefore
  exact htick.trans (batch_of_halting m hlast hh)

/-- Events emitted take their number from the room of the channel. -/
theorem roomFor_withEvents {es : List Event} {k : Nat} {s : State} :
    RoomFor k (withEvents es s) ↔ RoomFor (es.length + k) s := by
  simp [RoomFor, Nat.add_assoc]

/-- Settles O42: the batch is at the instruction that leads to the breakpoint, and the channel has room for its two events. -/
theorem breakpointEndsTheRun : Obligations.BreakpointEndsTheRun := by
  intro s t n k hrun hroom hn hpos hkn ht hh hb hbefore
  obtain ⟨m, u, hlast, htick⟩ := exists_tick_eq_batch_last hrun hn hpos hkn ht hbefore
  obtain ⟨hconfig, _, hcontroller, _⟩ := coreSteps_frame ht
  have hroom : RoomFor 2 (setRunning false t) := by simpa [RoomFor, hconfig, hcontroller] using hroom
  have hsecond : RoomFor 1 (withEvents [.breakpointHit t.core.pc] (setRunning false t)) := roomFor_withEvents.mpr hroom
  refine ⟨?_, congrArg Controller.breakpoints hcontroller⟩
  calc tick s
    _ = batch (m + 1) u := htick
    _ = andThen (emit (.breakpointHit t.core.pc) (setRunning false t)) update :=
        batch_of_breakpoint m hlast hh (hcontroller ▸ hb)
    _ = update (withEvents [.breakpointHit t.core.pc] (setRunning false t)) := by
        rw [emit_of_room _ (Nat.le_of_succ_le hroom), andThen]
    _ = .next (withEvents [.stateUpdate (snapshot (setRunning false t))]
          (withEvents [.breakpointHit t.core.pc] (setRunning false t))) := update_of_room hsecond
    _ = _ := by simp [withEvents]

end Sys2Proof.Machine
end

section
/-!
The exceptions (`60_exceptions.md`): the illegal opcode, and that Halted and Errored are left by RESET and LOAD_PROGRAM only.
-/

namespace Sys2Proof.Machine

open Sys2Proof.Safety

/-- Settles O8: a cell without a format ends the decoding at once, whatever cells stand after it. -/
theorem illegalOpcodeRaisesInvalidOpcode : Obligations.IllegalOpcodeRaisesInvalidOpcode := by
  intro s hh hpc hop
  have hd : decode (fetchCells s) = .error (.illegalOpcode (s.core.mem.read s.core.pc.toNat)) := by
    rw [fetchCells_eq_cons hpc]
    exact decode_of_illegal (formatOf_eq_none_of_ge hop) _
  exact coreStep_of_illegalOpcode hh hd

/-! What a halted core leaves to the controller and the host (`60_exceptions.md` R207, R219): all but two commands keep the
whole core. -/

/-- An emission on a state with the core of another one keeps that core. -/
theorem core_eq_of_emit {e : Event} {s u t : State} (h : emit e u = .next t) (hu : u.core = s.core) : t.core = s.core := by
  obtain ⟨_, rfl⟩ := emit_eq_next.mp h
  exact hu

/-- STEP on a halted core keeps the core (`40_step.md` R81). -/
theorem core_eq_of_commandStep_of_halted {s t : State} (hh : s.core.halted = true) (h : commandStep s = .next t) :
    t.core = s.core := by
  rw [commandStep, coreStep_of_halted hh, andThen, stopIfHalted_eq_setRunning] at h
  exact core_eq_of_emit h rfl

/-- A command on a halted core keeps the core, unless it is one of the two that reset it (`45_controller.md` R165, R170). -/
theorem core_eq_of_command_of_halted {c : Command} {s t : State} (hh : s.core.halted = true) (h : command c s = .next t) :
    t.core = s.core ∨ c = .reset ∨ ∃ words start, c = .loadProgram words start := by
  cases c with
  | loadProgram words start => exact .inr (.inr ⟨words, start, rfl⟩)
  | reset => exact .inr (.inl rfl)
  | step => exact .inl (core_eq_of_commandStep_of_halted hh h)
  | run speed =>
    simp only [command, commandRun, hh, if_true] at h
    split_ifs at h
    · cases h; exact .inl rfl
    · exact .inl (core_eq_of_emit h rfl)
  | setSpeed speed =>
    simp only [command, commandSetSpeed] at h
    split_ifs at h <;> cases h <;> exact .inl rfl
  | stop | getState | bpQuery => exact .inl (core_eq_of_emit h rfl)
  | bpAdd a | bpRemove a => cases h; exact .inl rfl

/-- A machine whose core is halted is Idle, and there a tick does nothing (`45_controller.md` R168, R180). -/
theorem tick_of_halted {s : State} (hl : LegalController s) (hh : s.core.halted = true) : tick s = .next s := by
  refine if_neg fun hrun => ?_
  exact absurd (hh.symm.trans (hl.runningReady hrun)) nofun

/-- An input of the host keeps a halted core, unless it lets the controller take one of the two commands that reset it. -/
theorem core_eq_of_input_of_halted {i : Input} {s t : State} (hl : LegalController s) (hh : s.core.halted = true)
    (h : input i s = .next t) :
    t.core = s.core ∨ (i = .takeCommand ∧ (s.controller.commands.head? = some .reset ∨
      ∃ words start, s.controller.commands.head? = some (.loadProgram words start))) := by
  cases i with
  | send c =>
    simp only [input, sendCommand] at h
    split_ifs at h
    cases h; exact .inl rfl
  | takeCommand =>
    cases hc : s.controller.commands with
    | nil =>
      obtain rfl : s = t := Host.Outcome.next.inj ((takeCommand_of_nil hc).symm.trans h)
      exact .inl rfl
    | cons c cs =>
      have htaken : command c (taken cs s.inputs s) = .next t := (takeCommand_of_cons hc).symm.trans h
      rcases core_eq_of_command_of_halted (s := taken cs s.inputs s) hh htaken with hcore | rfl | ⟨words, start, rfl⟩
      · exact .inl hcore
      · exact .inr ⟨rfl, .inl rfl⟩
      · exact .inr ⟨rfl, .inr ⟨words, start, rfl⟩⟩
  | tick =>
    obtain rfl : s = t := Host.Outcome.next.inj ((tick_of_halted hl hh).symm.trans h)
    exact .inl rfl
  | receiveEvent => cases h; exact .inl rfl
  | engine op => cases h; exact .inl rfl

/-- Settles O32: a step is the effect of one input, and what keeps the core keeps the four fields. -/
theorem haltIsTerminalUntilReset : Obligations.HaltIsTerminalUntilReset := by
  intro s t hl hh h
  cases hs : s.inputs with
  | nil =>
    rw [step_of_no_input hs] at h
    cases h
    exact .inl ⟨hh, rfl, rfl, rfl⟩
  | cons i rest =>
    rw [step_of_input hs] at h
    rcases core_eq_of_input_of_halted (legal_of_inputs hl rest).controller hh h with hcore | ⟨rfl, hcommand⟩
    · rw [hcore]
      exact .inl ⟨hh, rfl, rfl, rfl⟩
    · exact .inr ⟨rfl, hcommand⟩

end Sys2Proof.Machine
end

section
/-!
Reset and hazards (`70_reset_and_hazards.md`): what `reset()` of the ISA Core leaves, what a core does at a cleared cell, and that
neither of the two blocks writes the other's part of the state.
-/

namespace Sys2Proof.Machine

open Sys2Proof.Safety

/-! The reset of the ISA Core (R231). -/

/-- Settles O29: a reset writes every field of `init()` but the memory, which it clears or keeps as the parameter says. -/
theorem coreResetZeroesEverything : Obligations.CoreResetZeroesEverything := by
  intro s
  have hcleared (h : s.config.resetClearsMemory = true) (a : Nat) : (resetCore s).core.mem.read a = 0 := by
    rw [resetCore_core_of_clears h]; exact Memory.read_nil a
  have hkept (h : s.config.resetClearsMemory = false) : (resetCore s).core.mem = s.core.mem := by
    simp [h]
  exact ⟨rfl, rfl, rfl, rfl, rfl, rfl, rfl, rfl, rfl, rfl, rfl, rfl, rfl, hcleared, hkept, rfl, rfl, rfl⟩

/-! A cleared cell (R235). -/

/-- A cleared cell is the whole encoding of HLT (`30_encoding.md` R67), so a Ready core completes a HLT there. -/
theorem coreStep_of_clearedCell {s : State} (hh : s.core.halted = false)
    (hinside : s.core.pc.toNat + 1 < s.config.memSize) (hcell : s.core.mem.read s.core.pc.toNat = 0) :
    coreStep s = .next (completed .hlt s) := by
  have hfetch : fetchCells s = encode .hlt ++ cellsFrom s 2 (s.core.pc.toNat + 1) := by
    rw [fetchCells_eq_cons (Nat.lt_of_succ_lt hinside), hcell]; rfl
  calc coreStep s
    _ = exec .hlt s := coreStep_of_decode hh (decode_eq_ok_iff.mpr hfetch)
    _ = .next (completed .hlt s) := (choosesPC_hlt s).exec_of_inside hinside

/-- The memory of an admissible machine has no more cells than a PC has values (`00_scope.md` R5). -/
theorem memSize_le_of_wellFormed {c : Config} (h : c.wellFormed = true) : c.memSize ≤ 256 := by
  simp only [Config.wellFormed, Bool.and_eq_true, decide_eq_true_eq] at h
  obtain ⟨⟨_, hle, _⟩, _⟩ := h
  exact hle

/-- A PC whose next address exists advances without wrapping. -/
theorem toNat_pcAfter_hlt {s : State} (hwf : s.config.wellFormed = true)
    (hinside : s.core.pc.toNat + 1 < s.config.memSize) : (pcAfter .hlt s).toNat = s.core.pc.toNat + 1 :=
  BitVec.toNat_add_of_lt (Nat.lt_of_lt_of_le hinside (memSize_le_of_wellFormed hwf))

/-- Settles O30: the reset core is a Ready core at a cleared cell, and the step there is the completed HLT. -/
theorem clearedCellHaltsAtOnce : Obligations.ClearedCellHaltsAtOnce := by
  refine ⟨⟨completed .hlt State.reset, ?reset, rfl, rfl, rfl, rfl, rfl⟩, fun s hwf hh hinside hcell =>
    ⟨completed .hlt s, coreStep_of_clearedCell hh hinside hcell, rfl, rfl, toNat_pcAfter_hlt hwf hinside, rfl⟩⟩
  case reset => exact coreStep_of_clearedCell rfl (by decide) (Memory.read_nil _)

/-! The blocks (R230; `60_exceptions.md` R211). The core and the controller on one side keep the circuit of the other. -/

/-- `t` has the parameters and the circuit of `s`: nothing was done in the Gate Evaluation Engine between the two. -/
structure SameEngine (s t : State) : Prop where
  config : t.config = s.config
  circuit : t.circuit = s.circuit

theorem sameEngine_of_emit {e : Event} {s u t : State} (h : emit e u = .next t) (hu : SameEngine s u) : SameEngine s t := by
  obtain ⟨_, rfl⟩ := emit_eq_next.mp h
  exact ⟨hu.config, hu.circuit⟩

theorem SameEngine.setRunning {s u : State} (hu : SameEngine s u) (b : Bool) : SameEngine s (setRunning b u) :=
  ⟨hu.config, hu.circuit⟩

theorem sameEngine_of_coreSteps {k : Nat} {s t : State} (h : coreSteps k s = some t) : SameEngine s t := by
  obtain ⟨hconfig, hcircuit, _⟩ := coreSteps_frame h
  exact ⟨hconfig, hcircuit⟩

/-- A batch is steps of the core, and what ends it stops the run and emits (`45_controller.md` R168). -/
theorem sameEngine_of_batch {n : Nat} {s t : State} (h : batch n s = .next t) : SameEngine s t := by
  obtain ⟨k, u, _, hu, ⟨_, ht⟩ | ⟨_, _, hroom, ht⟩ | ⟨_, ht⟩⟩ := batch_cases h
  · exact sameEngine_of_emit ht ((sameEngine_of_coreSteps hu).setRunning false)
  · have hhit : emit (.breakpointHit u.core.pc) (setRunning false u) = .next _ := emit_of_room _ hroom
    exact sameEngine_of_emit ht (sameEngine_of_emit hhit ((sameEngine_of_coreSteps hu).setRunning false))
  · exact sameEngine_of_emit ht (sameEngine_of_coreSteps hu)

theorem sameEngine_of_tick {s t : State} (h : tick s = .next t) : SameEngine s t := by
  unfold tick at h
  split_ifs at h
  · exact sameEngine_of_batch h
  · cases h; exact ⟨rfl, rfl⟩

/-- STEP is one step of the core, a stop where that halts, and a report (`45_controller.md` R166). -/
theorem sameEngine_of_commandStep {s t : State} (h : commandStep s = .next t) : SameEngine s t := by
  obtain ⟨u, hu, h⟩ := andThen_eq_next.mp h
  obtain ⟨hconfig, hcircuit, _⟩ := coreStep_frame hu
  rw [stopIfHalted_eq_setRunning] at h
  exact sameEngine_of_emit h ⟨hconfig, hcircuit⟩

theorem sameEngine_of_command {c : Command} {s t : State} (h : command c s = .next t) : SameEngine s t := by
  cases c with
  | loadProgram words start => exact sameEngine_of_emit h ⟨by simp, by simp⟩
  | step => exact sameEngine_of_commandStep h
  | run speed =>
    simp only [command, commandRun] at h
    split_ifs at h
    · cases h; exact ⟨rfl, rfl⟩
    · exact sameEngine_of_emit h ⟨rfl, rfl⟩
    · cases h; exact ⟨rfl, rfl⟩
  | setSpeed speed =>
    simp only [command, commandSetSpeed] at h
    split_ifs at h <;> cases h <;> exact ⟨rfl, rfl⟩
  | stop | reset | getState | bpQuery => exact sameEngine_of_emit h ⟨rfl, rfl⟩
  | bpAdd a | bpRemove a => cases h; exact ⟨rfl, rfl⟩

/-- Every input of the host that is no engine operation is the controller's or its channels'. -/
theorem sameEngine_of_input {i : Input} {s t : State} (hi : ∀ op, i ≠ .engine op) (h : input i s = .next t) :
    SameEngine s t := by
  cases i with
  | send c =>
    simp only [input, sendCommand] at h
    split_ifs at h
    cases h; exact ⟨rfl, rfl⟩
  | takeCommand =>
    simp only [input, takeCommand] at h
    split at h
    · cases h; exact ⟨rfl, rfl⟩
    · obtain ⟨hconfig, hcircuit⟩ := sameEngine_of_command h
      exact ⟨hconfig, hcircuit⟩
  | tick => exact sameEngine_of_tick h
  | receiveEvent => cases h; exact ⟨rfl, rfl⟩
  | engine op => exact absurd rfl (hi op)

/-- Settles O58: a step is the effect of one input, and an engine operation writes the circuit and its result only. -/
theorem blocksAreIndependent : Obligations.BlocksAreIndependent := by
  intro s t h
  cases hs : s.inputs with
  | nil =>
    rw [step_of_no_input hs] at h
    cases h
    exact ⟨rfl, fun _ => ⟨rfl, rfl⟩, fun _ => rfl⟩
  | cons i rest =>
    rw [step_of_input hs] at h
    simp only [List.head?_cons, ne_eq, Option.some.injEq]
    by_cases hop : ∃ op, i = .engine op
    · obtain ⟨op, rfl⟩ := hop
      cases h
      exact ⟨rfl, fun _ => ⟨rfl, rfl⟩, fun hno => absurd rfl (hno op)⟩
    · obtain ⟨hconfig, hcircuit⟩ := sameEngine_of_input (not_exists.mp hop) h
      exact ⟨hconfig, fun hengine => absurd hengine hop, fun _ => hcircuit⟩

end Sys2Proof.Machine
end
